-- ==== Sys2Proof/Word.lean ====
section
/-! DEFINITION. The word types of JTFP: bytes, nibbles, string registers and hex text (R9, R12, R200). -/

namespace Sys2Proof

/-- A byte: 8 bits, bit 0 the least significant (R9). -/
abbrev Byte := BitVec 8

/-- Half a byte (R9): the high nibble is bits 7..4, the low nibble bits 3..0. -/
abbrev Nibble := BitVec 4

/-- The contents of a string register: 8-bit character codes, character 0 the leftmost (R12).
Its fixed length is part of the state invariant (`Sys2Proof.Machine.State.Inv`). -/
abbrev Chars := List Byte

/-- A hex text: a sequence of characters, as the host-side FrameSplitter sees it (R200). -/
abbrev HexText := List Char

end Sys2Proof
end

