-- ==== Sys2Proof/Config.lean ====
section
/-! DEFINITION. What is fixed when the block is built (R8), and the values the spec leaves open: a constant
without a body each, of which no proof can see a value. -/

namespace Sys2Proof

/-- `IMEI_MODE` (R8, R78, R156): how the IMEI field of a data frame is laid out. -/
inductive ImeiMode where
  | hex8      -- this hardware: 8 bytes, 16 characters
  | ascii15   -- the rejected alternative of R156: 15 bytes, 15 characters
  deriving DecidableEq, Repr

/-- `UTIME_SRC` (R8, R131): where `utimeMillis` comes from. -/
inductive UtimeSrc where
  | dateTime12      -- the default: the 12 digits DDMMYYHHMMSS
  | uninterpreted   -- an uninterpreted function of the six date and time bytes
  deriving DecidableEq, Repr

/-- The parameters of R8 that are open, plus `VERSION_JT701D` (R215, U11). State holds one `Config`, which no
step changes, so a statement about every state is a statement about every parameter value. -/
structure Config where
  /-- `BUF_MAX`: capacity of the input buffer in bytes. -/
  bufMax        : Nat
  /-- R8: `BUF_MAX` is a natural number >= 16. -/
  bufMax_ge     : 16 ≤ bufMax
  imeiMode      : ImeiMode
  utimeSrc      : UtimeSrc
  /-- `VERSION_JT701D`: the version code that `protocolVersionLabel` calls "JT701D". -/
  versionJT701D : Byte
  deriving DecidableEq, Repr

/-- The configuration in `State.reset`: `BUF_MAX` 4096 is the number D3 suggests (log entry 1); `HEX8`,
`DATE_TIME_12` and 0x13 are the values R8 and U11 give. -/
def Config.standard : Config where
  bufMax        := 4096
  bufMax_ge     := by decide
  imeiMode      := .hex8
  utimeSrc      := .dateTime12
  versionJT701D := 0x13

/-- `CW` = ceil(log2(BUF_MAX + 1)) (R8): the width in bits of `CUR`, `LEN` and `ERRPOS`, which the state holds as
naturals (R17 f). -/
def Config.cursorWidth (c : Config) : Nat := Nat.log2 c.bufMax + 1

/-! ## Free values -/

/-- R131 under `UTIME_SRC = UNINTERPRETED`: `utimeMillis` as an uninterpreted total function of the six date and
time bytes, with values in 0 .. 999_999_999_999 (log entry 5). -/
opaque Config.freeUtime : List Byte → Fin 1000000000000

/-- The four meanings of the direction nibble (R223). -/
inductive DirectionMeaning where
  | fixValid | northSouth | eastWest | fixedValue
  deriving DecidableEq, Repr

/-- The number by which the parameter `DIR_BITS` indexes a meaning. -/
def DirectionMeaning.index : DirectionMeaning → Fin 4
  | .fixValid => 0 | .northSouth => 1 | .eastWest => 2 | .fixedValue => 3

/-- `DIR_BITS` (R223, U12): the bijection from meanings to bit numbers, with no default (log entry 9). -/
opaque Config.directionBit : Equiv.Perm (Fin 4)

/-- `DIR_BITS` (U12): the polarity of each meaning (log entry 9). -/
opaque Config.directionPolarity : Fin 4 → Bool

/-- R223: the comma-joined descriptive string, whose words the source does not give (N3), as a free function of
the four meanings (fix valid, north/south, east/west, fixed value) after polarity (log entry 9). -/
opaque Config.directionText : Bool → Bool → Bool → Bool → String

/-- R223 gives the nibble of '0'..'9' and 'A'..'F' only; of any other character it is free (log entry 9). -/
opaque Config.directionNibbleOutside : Byte → Nibble

/-- R219: the text of day, month and two-digit year "as a calendar date", whose format the source does not give
(N23) (log entry 10). -/
opaque Config.dateText : Nat → Nat → Nat → String

/-- U9 makes no claim about a day of 29..31 that the month may not have; whether such a date is rendered is free
(log entry 10). -/
opaque Config.calendarAccepts : Nat → Nat → Nat → Bool

/-- R224: the 16 lost names of `deviceStatusLabels` (N2), by bit number (log entry 11). -/
opaque Config.statusFlagName : Fin 16 → String

end Sys2Proof
end

