-- ==== Sys2Proof/Syntax.lean ====
section
/-! DEFINITION. The instructions: one constructor per row of spec/opcode_table.json (R86). -/

namespace Sys2Proof

/-- R170: the events of the high event byte, bit 0 first. -/
inductive HighByteLockEvent where
  | LongTimeUnlocking | WrongPassword | Swipe | LowBattery | CoverOpen | CoverClosed | MotorStuck | Reserved
  deriving DecidableEq, Repr

/-- R171: the events of the low event byte, bit 0 first. -/
inductive LowByteLockEvent where
  | BaseStationPositioning | EnterFence | ExitFence | RopeCut | Vibration | AckRequired | RopeInserted | MotorLocked
  deriving DecidableEq, Repr

/-- Which enumeration an event byte belongs to (R172): where the byte came from fixes it. -/
inductive EventTable where
  | high | low
  deriving DecidableEq, Repr

/-- The flag operand of `EVT.HAS` and `EVT.ADD`: one event of one enumeration, so that a flag that is not a single
bit cannot be written (R173). -/
inductive EventFlag where
  | high (e : HighByteLockEvent)
  | low (e : LowByteLockEvent)
  deriving DecidableEq, Repr

/-- The fields of a record (R32 to R45), and the two accessors of R41. -/
inductive RecordField where
  | utimeMillis | utimeSeconds | date | time | latRaw | lngRaw | directionIndicator | speed | angle | distanceKm
  | visibleSatellites | cellIdPositionCode | cellId | lac | mcc | mncHighByte | mncLowByte | gsmSignalQuality
  | fenceAlarmId | expandedDeviceStatus | expandedDeviceStatus2 | batteryLevelPercent | serialNo | highEvents
  | lowEvents
  deriving DecidableEq, Repr

/-- The names `READ` takes (R276): any of `MSG.*`, `NREC`, `REC[i].*`. -/
inductive ReadName where
  | protocolHeader | protocolVersion | imei | terminalId | deviceType | dataType | bindVehicleId | containsHealthcheck
  | nrec
  | record (i : Nat) (field : RecordField)
  deriving DecidableEq, Repr

/-- One constructor per row of spec/opcode_table.json. The four frame rows carry what the decoder reads from the
buffer; the host operations, the port operations and the host-software functions have no bit pattern (R86) and
carry their operands. -/
inductive Instr where
  /-- `HBEAT` (R79): the 10 identifier bytes and the two unexamined bytes. -/
  | hbeat (terminalId unnamed : List Byte)
  /-- `CMD` (R80): the body, and whether the closing 0x29 was found before the end of the buffer (R104). -/
  | cmd (body : List Byte) (closed : Bool)
  /-- `DATA` (R76): the bytes of each field the buffer holds whole, in layout order, and then what the buffer holds
  of the first field that does not fit (empty when all 28 fit). -/
  | data (fields : List (List Byte)) (cut : List Byte)
  /-- `ILLEGAL` (R82): a marker that is neither 0x24 nor 0x28. -/
  | illegal (marker : Byte)
  | reset
  | load (bytes : List Byte)
  | start
  | poll
  | read (name : ReadName)
  | evtHas (s : Byte) (f : EventFlag)
  | evtAdd (s : Byte) (f : EventFlag)
  | evtRender (t : EventTable) (s : Byte)
  | chkLat (v : BitVec 32)
  | chkLng (v : BitVec 32)
  | chkAngle (a : Byte)
  | split (text : HexText)
  | protocolVersionLabel (v : Byte)
  | deviceTypeLabel (t : Nibble)
  | dataTypeLabel (t : Nibble)
  | coordinateDegrees (raw : Nat)
  | dateLabel (date : Chars)
  | speedKmh (raw : Byte)
  | angleDegrees (raw : Byte)
  | gsmSignalQualityLabel (v : Byte)
  | directionIndicatorLabel (ch : Byte)
  | deviceStatusLabels (v : BitVec 16)
  deriving DecidableEq, Repr

/-- The rows a host can issue: all but the four frame rows, which only the decoder reads from the buffer (R13). -/
def Instr.isHostOp : Instr → Bool
  | .hbeat _ _ | .cmd _ _ | .data _ _ | .illegal _ => false
  | .reset | .load _ | .start | .poll | .read _
  | .evtHas _ _ | .evtAdd _ _ | .evtRender _ _ | .chkLat _ | .chkLng _ | .chkAngle _
  | .split _ | .protocolVersionLabel _ | .deviceTypeLabel _ | .dataTypeLabel _ | .coordinateDegrees _
  | .dateLabel _ | .speedKmh _ | .angleDegrees _ | .gsmSignalQualityLabel _ | .directionIndicatorLabel _
  | .deviceStatusLabels _ => true

/-- An operation the host has issued. -/
structure HostOp where
  instr  : Instr
  isHost : instr.isHostOp = true
  deriving DecidableEq, Repr

/-- Which of the two agents of R13 moves next. -/
inductive Turn where
  /-- The decoder takes a step of its walk (R101). -/
  | decoder
  /-- The host's operation takes place (R278). -/
  | host (op : HostOp)
  deriving DecidableEq, Repr

end Sys2Proof
end

