-- ==== Sys2Proof/Machine/Layout.lean ====
section
/-! DEFINITION. The fixed layout of a data frame (R76, R156) and the frame constants of R8. -/

namespace Sys2Proof.Machine

/-- Start marker of a data frame (R70). -/
def markerData : Byte := 0x24

/-- Start marker of a heartbeat or command frame (R70). -/
def markerParen : Byte := 0x28

/-- Closing marker of a command frame (R80). -/
def markerClose : Byte := 0x29

/-- The trailer "JT)" of a heartbeat frame (R79). -/
def trailer : List Byte := [0x4A, 0x54, 0x29]

/-- `HB_LEN` (R8). -/
abbrev hbLen : Nat := 16

/-- `MIN_LEN` (R8). -/
abbrev minLen : Nat := 16

/-- `IMEI_BYTES` (R8). -/
def imeiBytes : ImeiMode → Nat
  | .hex8 => 8
  | .ascii15 => 15

/-- `IMEI_CHARS` (R8). -/
def imeiChars : ImeiMode → Nat
  | .hex8 => 16
  | .ascii15 => 15

/-- The sizes in bytes of the 28 fields of a data frame, in layout order (R76; R156 for `ASCII15`). -/
def fieldSizes (mode : ImeiMode) : List Nat :=
  [1, 5, 1, 1, 2, 3, 3,         -- protocolHeader .. time
   4, 5, 1, 1, 4, 1,            -- latitude .. visibleSatellites
   4, 1, 1, 1, 4, 1, 1, 1, 1, 1, -- bindVehicleId .. expandedDeviceStatus2
   imeiBytes mode, 2, 2, 1, 1]  -- imei .. serialNo

/-- The offset of each field: the running sums of the sizes (R76). -/
def fieldOffsets (mode : ImeiMode) : List Nat :=
  (List.range (fieldSizes mode).length).map fun k => ((fieldSizes mode).take k).sum

/-- `DATA_LEN` (R8, R156): the bytes of one data frame, the sum of the sizes (`fieldSizes_sum`). -/
def dataLen : ImeiMode → Nat
  | .hex8 => 62
  | .ascii15 => 69

/-- `REC_MAX` = floor(BUF_MAX / DATA_LEN) (R8). -/
def recMax (c : Config) : Nat := c.bufMax / dataLen c.imeiMode

end Sys2Proof.Machine
end

