-- ==== Sys2Proof/WellFormed.lean ====
section
/-! DEFINITION. Which instructions a decoder can read or a host can issue. -/

namespace Sys2Proof

/-- The data-frame fields are the first ones of the layout, each at its own size, and what is cut is shorter than
the field it was cut from (nothing, after the last field). -/
def fieldsFit : List Nat → List (List Byte) → List Byte → Bool
  | [], [], cut => cut.isEmpty
  | [], _ :: _, _ => false
  | n :: _, [], cut => decide (cut.length < n)
  | n :: ns, f :: fs, cut => decide (f.length = n) && fieldsFit ns fs cut

/-- R80: no byte of a command body is 0x29, and a closed command frame of 16 bytes does not end in the heartbeat
trailer (R71 would read it as a heartbeat). -/
def commandFits (body : List Byte) (closed : Bool) : Bool :=
  !body.contains Machine.markerClose &&
    !(closed && decide (body.length = 14) && decide (body.drop 12 = [0x4A, 0x54]))

/-- The checks on an instruction's operands, under an IMEI layout. -/
def Instr.wellFormed (mode : ImeiMode) : Instr → Bool
  | .hbeat tid unnamed => decide (tid.length = 10) && decide (unnamed.length = 2)
  | .cmd body closed => commandFits body closed
  | .data fields cut =>
      decide (fields.head? = some [Machine.markerData]) && fieldsFit (Machine.fieldSizes mode) fields cut
  | .illegal m => decide (m ≠ Machine.markerData) && decide (m ≠ Machine.markerParen)
  | .dateLabel date => decide (date.length = 6)
  | .reset | .load _ | .start | .poll | .read _
  | .evtHas _ _ | .evtAdd _ _ | .evtRender _ _ | .chkLat _ | .chkLng _ | .chkAngle _
  | .split _ | .protocolVersionLabel _ | .deviceTypeLabel _ | .dataTypeLabel _ | .coordinateDegrees _
  | .speedKmh _ | .angleDegrees _ | .gsmSignalQualityLabel _ | .directionIndicatorLabel _
  | .deviceStatusLabels _ => true

end Sys2Proof
end

