-- ==== Sys2Proof/Decode.lean ====
section
/-! DEFINITION. The decoder (R71, R102, R104, R76), total on any bytes, and after it the encoder. -/

namespace Sys2Proof

/-- Why no instruction was read: the byte list is empty (at `CUR = LEN` the walk finishes, R108). -/
inductive DecodeError where
  | noBytes
  deriving DecidableEq, Repr

/-- The four frame rows of the opcode table (R86). -/
inductive FrameKind where
  | hbeat | cmd | data | illegal
  deriving DecidableEq, Repr

/-- R71: marker 0x28, at least 16 bytes left, and "JT)" at bytes 13 to 15. -/
def isHeartbeat (bytes : List Byte) : Bool :=
  decide (Machine.hbLen ≤ bytes.length) && decide ((bytes.drop 13).take 3 = Machine.trailer)

/-- R102: the kind of the frame that `m :: bytes` starts with. -/
def classify (m : Byte) (bytes : List Byte) : FrameKind :=
  if m = Machine.markerParen then (if isHeartbeat (m :: bytes) then .hbeat else .cmd)
  else if m = Machine.markerData then .data
  else .illegal

/-- R104's scan: the bytes before the first 0x29, and what follows it (`none`: there is no 0x29). -/
def scanClose : List Byte → List Byte × Option (List Byte)
  | [] => ([], none)
  | b :: bs =>
    if b = Machine.markerClose then ([], some bs)
    else (b :: (scanClose bs).1, (scanClose bs).2)

/-- R76, R154: the fields that fit, what is left of the first that does not, and the bytes after the frame. -/
def cutFields : List Nat → List Byte → List (List Byte) × List Byte × List Byte
  | [], bs => ([], [], bs)
  | n :: ns, bs =>
    if n ≤ bs.length then
      let r := cutFields ns (bs.drop n)
      (bs.take n :: r.1, r.2.1, r.2.2)
    else ([], bs, [])

/-- The instruction at the head of `bytes`, with the bytes after it. -/
def decode (mode : ImeiMode) : List Byte → Except DecodeError (Instr × List Byte)
  | [] => .error .noBytes
  | m :: bs =>
    match classify m bs with
    | .hbeat => .ok (.hbeat (bs.take 10) ((bs.drop 10).take 2), bs.drop 15)
    | .cmd => .ok (.cmd (scanClose bs).1 (scanClose bs).2.isSome, ((scanClose bs).2).getD [])
    | .data =>
      let r := cutFields (Machine.fieldSizes mode) (m :: bs)
      .ok (.data r.1 r.2.1, r.2.2)
    | .illegal => .ok (.illegal m, bs)

/-- The bytes of a frame (R76, R79, R80); the other rows have no bit pattern (R86). -/
def encode : Instr → Option (List Byte)
  | .hbeat tid unnamed => some (Machine.markerParen :: tid ++ unnamed ++ Machine.trailer)
  | .cmd body closed => some (Machine.markerParen :: body ++ (if closed then [Machine.markerClose] else []))
  | .data fields cut => some (fields.flatten ++ cut)
  | .illegal m => some [m]
  | .reset | .load _ | .start | .poll | .read _
  | .evtHas _ _ | .evtAdd _ _ | .evtRender _ _ | .chkLat _ | .chkLng _ | .chkAngle _
  | .split _ | .protocolVersionLabel _ | .deviceTypeLabel _ | .dataTypeLabel _ | .coordinateDegrees _
  | .dateLabel _ | .speedKmh _ | .angleDegrees _ | .gsmSignalQualityLabel _ | .directionIndicatorLabel _
  | .deviceStatusLabels _ => none

/-! ## The opcode table's words -/

/-- The bytes of a table word: byte `k` is bits 8k+7..8k of `w`, `nbits` bits of it, then zeros up to the longest
frame. -/
def tableBytes (mode : ImeiMode) (nbits w : Nat) : List Byte :=
  (List.range (max (nbits / 8) (Machine.dataLen mode))).map fun k =>
    if k < nbits / 8 then BitVec.ofNat 8 (w >>> (8 * k)) else 0

/-- The instruction the decoder reads from a table word, under this hardware's `IMEI_MODE = HEX8`. -/
def decodeTableWord (nbits w : Nat) : Option Instr :=
  match decode .hex8 (tableBytes .hex8 nbits w) with
  | .ok r => some r.1
  | .error _ => none

/-- A row of the opcode table with a bit pattern: `match` and `mask` over the first 16 bytes, byte 0 leftmost (R86). -/
structure PatternRow where
  kind    : FrameKind
  pattern : List Byte
  mask    : List Byte
  deriving DecidableEq, Repr

/-- The rows with a pattern, in the order R86 tries them. -/
def patternRows : List PatternRow :=
  [⟨.hbeat, [0x28, 0, 0, 0, 0, 0, 0, 0, 0, 0, 0, 0, 0, 0x4A, 0x54, 0x29],
            [0xFF, 0, 0, 0, 0, 0, 0, 0, 0, 0, 0, 0, 0, 0xFF, 0xFF, 0xFF]⟩,
   ⟨.cmd,   [0x28, 0, 0, 0, 0, 0, 0, 0, 0, 0, 0, 0, 0, 0, 0, 0], [0xFF, 0, 0, 0, 0, 0, 0, 0, 0, 0, 0, 0, 0, 0, 0, 0]⟩,
   ⟨.data,  [0x24, 0, 0, 0, 0, 0, 0, 0, 0, 0, 0, 0, 0, 0, 0, 0], [0xFF, 0, 0, 0, 0, 0, 0, 0, 0, 0, 0, 0, 0, 0, 0, 0]⟩]

/-- R86: `(first 16 bytes AND mask) = match`; `HBEAT` only when 16 bytes are available, the others also with fewer
(the bytes a row may lack are masked out). -/
def PatternRow.fits (r : PatternRow) (bytes : List Byte) : Bool :=
  ((List.range 16).all fun k => decide (bytes.getD k 0 &&& r.mask.getD k 0 = r.pattern.getD k 0)) &&
    (decide (r.kind ≠ .hbeat) || decide (16 ≤ bytes.length))

/-- R86: the kind the table gives a non-empty byte list: the first row that fits, else `ILLEGAL`. -/
def tableKind (bytes : List Byte) : FrameKind :=
  ((patternRows.find? (·.fits bytes)).map (·.kind)).getD .illegal

end Sys2Proof
end

