-- ==== Sys2Proof/Machine/State.lean ====
section
/-! DEFINITION. The state of one JTFP instance (R20) as plain data, the reasons a step can stop, and reset (R48). -/

namespace Sys2Proof.Machine

/-- `PHASE` (R21). -/
inductive Phase where
  | idle | run | done | fail
  deriving DecidableEq, Repr

/-- The contents of `ERR` (R240): no error, or one of the six kinds. -/
inductive ErrorKind where
  | noError | malformedHex | frameTooShort | unrecognizedHeader | fieldOutOfRange | incompleteField | badDigit
  deriving DecidableEq, Repr

/-- The message registers `MSG.*` (R24 to R30). -/
structure Msg where
  protocolHeader      : Byte       -- R24
  protocolVersion     : Byte       -- R25
  imei                : Chars      -- R26: 16 characters (15 under ASCII15)
  terminalId          : Chars      -- R27: 10 characters
  deviceType          : BitVec 4   -- R28
  dataType            : BitVec 4   -- R28
  bindVehicleId       : Chars      -- R29: 8 characters
  containsHealthcheck : Bool       -- R30
  deriving DecidableEq, Repr

/-- A record of the store `REC` (R32 to R45). -/
structure Record where
  utimeMillis           : BitVec 40   -- R32
  utimeSeconds          : BitVec 30   -- R33
  date                  : Chars       -- R34: 6 characters
  time                  : Chars       -- R34: 6 characters
  latRaw                : BitVec 32   -- R35
  lngRaw                : BitVec 32   -- R35
  directionIndicator    : Byte        -- R36: one character
  speed                 : BitVec 8    -- R37
  angle                 : BitVec 8    -- R38
  distanceKm            : BitVec 32   -- R39
  visibleSatellites     : BitVec 8    -- R40
  cellIdPositionCode    : BitVec 32   -- R41
  mcc                   : BitVec 16   -- R42
  mncHighByte           : BitVec 8    -- R42
  mncLowByte            : BitVec 8    -- R42
  gsmSignalQuality      : BitVec 8    -- R43
  fenceAlarmId          : BitVec 8    -- R43
  expandedDeviceStatus  : BitVec 8    -- R43
  expandedDeviceStatus2 : BitVec 8    -- R43
  batteryLevelPercent   : BitVec 8    -- R43
  serialNo              : BitVec 8    -- R44
  highEvents            : Byte        -- R45
  lowEvents             : Byte        -- R45
  deriving DecidableEq, Repr

/-- What a `DATA` step has staged (R154, R155): the seven message values, the record, and the bytes of `date` and
`time` that R131 reads again. Local to one step, not state. -/
structure Staged where
  protocolHeader  : Byte
  protocolVersion : Byte
  imei            : Chars
  terminalId      : Chars
  deviceType      : BitVec 4
  dataType        : BitVec 4
  bindVehicleId   : Chars
  dateTimeBytes   : List Byte
  record          : Record
  deriving DecidableEq, Repr

/-- The result of `SPLIT` (R201). -/
inductive SplitResult where
  | ok (frames : List HexText)
  | malformedHex (segment : HexText)
  deriving DecidableEq, Repr

/-- The results of `dataTypeLabel` (R217): four descriptions whose exact strings are not in the source, and
"Unknown". -/
inductive DataTypeLabel where
  | positional | alarm | blindArea | subNew | unknown
  deriving DecidableEq, Repr

/-- The result of `dateLabel` (R219): the call fails, or day, month and two-digit year, and their text. -/
inductive DateResult where
  | malformed
  | ok (day month year : Nat) (text : String)
  deriving DecidableEq, Repr

/-- What `READ` returns (R276): a number, the characters of a string register, or a bit. -/
inductive ReadValue where
  | num (v : Nat)
  | chars (cs : Chars)
  | bit (b : Bool)
  deriving DecidableEq, Repr

/-- What `POLL` adds at `FAIL` (R275): `ERR`, `ERRFIELD`, `ERRPOS`. -/
structure FailureReport where
  err      : BitVec 3
  errField : BitVec 6
  errPos   : Nat
  deriving DecidableEq, Repr

/-- The answer the host gets from an operation that has one. -/
inductive Reply where
  | poll (phase : BitVec 2) (failure : Option FailureReport)
  | read (v : ReadValue)
  | evtHas (result : Bool)
  | evtAdd (result : Byte)
  | evtRender (names : List String) (text : String)
  | check (result : Bool)
  | split (result : SplitResult)
  /-- `protocolVersionLabel`, `deviceTypeLabel`. -/
  | label (text : String)
  | dataType (label : DataTypeLabel)
  /-- An exact multiple of 10^-6 (R225): `coordinateDegrees`, `speedKmh`. -/
  | millionths (n : Nat)
  /-- `angleDegrees`, `gsmSignalQualityLabel`. -/
  | number (n : Nat)
  | date (result : DateResult)
  /-- `directionIndicatorLabel`: the four booleans of R223 and the text. -/
  | direction (fixValid northSouth eastWest fixedValue : Bool) (text : String)
  /-- `deviceStatusLabels`: bit number and name of each 1 bit; a SET, held in ascending bit order (R224, U5). -/
  | statusFlags (flags : List (Nat × String))
  deriving DecidableEq, Repr

/-- The input buffer `BUF` (R50): the bytes that hold a value, by address, addresses strictly rising. An unlisted
address has no value. -/
abbrev Memory := List Host.Cell

/-- Why the machine stops. -/
inductive Fault where
  /-- The decoder's fetch, or `START`'s header test, reached an address of `BUF` below `LEN` that holds no value
  (R50). Raised by a decoder step and by `START`, and never from a state that meets `State.Inv`, where every address
  below `LEN` holds a value. Safe (log entry 17). -/
  | bufferHoldsNoValue (address : Nat)
  /-- At `PHASE = RUN` the cursor is past `LEN`, so there is no frame to decode (R22 says this does not occur).
  Raised by a decoder step only, and never from a state that meets `State.Inv`. Safe (log entry 17). -/
  | cursorPastEnd (cursor : Nat)
  deriving DecidableEq, Repr

/-- Cases the spec refuses (R16): it gives them no meaning and the model gives them none. -/
inductive Refusal where
  /-- An instruction without a meaning in this model. Raised by no arm: every instruction is modelled. Safe. -/
  | notModelled (mnemonic : String)
  /-- `LOAD` of more than `BUF_MAX` bytes (R273, D31, U15). Raised by `LOAD`. Safe. -/
  | loadLongerThanBuffer (n : Nat)
  /-- `READ` while `PHASE = RUN` (R276, D23, U15). Raised by `READ`. Safe. -/
  | readWhileRunning
  /-- `READ` of `REC[i]` with `i >= NREC` (R276, R31, U15). Raised by `READ`. Safe. -/
  | readPastRecords (i : Nat)
  deriving DecidableEq, Repr

/-- The state of one JTFP instance (R20), its configuration, and what the host side holds. -/
structure State where
  /-- The parameters of R8; no step changes them. -/
  cfg      : Config
  /-- The model's own: the turns still to come, oldest first. When it is empty every further turn is the decoder's
  (R13, R282; log entry 2). -/
  agenda   : List Turn
  /-- The model's own: the answer of the host's last operation that had one (log entry 3). No rule reads it. -/
  reply    : Option Reply
  /-- `BUF` (R50). -/
  mem      : Memory
  /-- `LEN` (R23). -/
  len      : Nat
  /-- `CUR` (R22), the program counter. -/
  cur      : Nat
  /-- `PHASE` (R21). -/
  phase    : Phase
  /-- `ERR` (R46). -/
  err      : ErrorKind
  /-- `ERRFIELD` (R46). -/
  errField : BitVec 6
  /-- `ERRPOS` (R46). -/
  errPos   : Nat
  /-- `MSG.*` (R24 to R30). -/
  msg      : Msg
  /-- `REC[0 .. NREC-1]` (R31), in frame order; a record at or above `NREC` holds no value and is not listed. -/
  recs     : List Record
  deriving DecidableEq, Repr

/-- `NREC` (R31): the number of records in the store. -/
def State.nrec (s : State) : Nat := s.recs.length

/-- R48: every message register zero, every string register all NUL. -/
def Msg.reset (mode : ImeiMode) : Msg where
  protocolHeader      := 0
  protocolVersion     := 0
  imei                := List.replicate (imeiChars mode) 0
  terminalId          := List.replicate 10 0
  deviceType          := 0
  dataType            := 0
  bindVehicleId       := List.replicate 8 0
  containsHealthcheck := false

/-- The machine after `RESET` (R48, R270) under a configuration, with what the host side holds. `BUF` holds no value. -/
def State.resetWith (cfg : Config) (agenda : List Turn) (reply : Option Reply) : State where
  cfg      := cfg
  agenda   := agenda
  reply    := reply
  mem      := []
  len      := 0
  cur      := 0
  phase    := .idle
  err      := .noError
  errField := 0
  errPos   := 0
  msg      := Msg.reset cfg.imeiMode
  recs     := []

/-- The machine right after reset (R48), under the standard configuration, with nothing asked of it by the host. -/
def State.reset : State := State.resetWith Config.standard [] none

end Sys2Proof.Machine
end

