-- ==== Sys2Proof/Machine/Flags.lean ====
section
/-! DEFINITION. JTFP has no condition codes (R19). What it computes on flags is here: the BitEventCodec's flag sets
(R170 to R178) and the one-bit results of the GPS validator (R190 to R192). -/

namespace Sys2Proof.Machine

/-! ## The two event enumerations -/

/-- The bit number of a high-byte event (R170). -/
def highBit : HighByteLockEvent → Nat
  | .LongTimeUnlocking => 0 | .WrongPassword => 1 | .Swipe => 2 | .LowBattery => 3
  | .CoverOpen => 4 | .CoverClosed => 5 | .MotorStuck => 6 | .Reserved => 7

/-- The bit number of a low-byte event (R171). -/
def lowBit : LowByteLockEvent → Nat
  | .BaseStationPositioning => 0 | .EnterFence => 1 | .ExitFence => 2 | .RopeCut => 3
  | .Vibration => 4 | .AckRequired => 5 | .RopeInserted => 6 | .MotorLocked => 7

/-- The bit number of a flag operand. -/
def flagBit : EventFlag → Nat
  | .high e => highBit e
  | .low e => lowBit e

/-- The flag operand as the port sees it: one of 1, 2, 4, .., 128 (R172). -/
def flagByte (f : EventFlag) : Byte := BitVec.twoPow 8 (flagBit f)

/-- The names of an enumeration, bit 0 first, spelled as the tables of R170 and R171 spell them. -/
def eventNames : EventTable → List String
  | .high => ["LongTimeUnlocking", "WrongPassword", "Swipe", "LowBattery", "CoverOpen", "CoverClosed", "MotorStuck",
      "Reserved"]
  | .low => ["BaseStationPositioning", "EnterFence", "ExitFence", "RopeCut", "Vibration", "AckRequired",
      "RopeInserted", "MotorLocked"]

/-! ## The BitEventCodec -/

/-- `EVT.HAS` (R173): `(s AND f) != 0`. -/
def evtHas (s : Byte) (f : EventFlag) : Bool := decide (s &&& flagByte f ≠ 0)

/-- `EVT.ADD` (R174): `s OR f`. -/
def evtAdd (s : Byte) (f : EventFlag) : Byte := s ||| flagByte f

/-- The names at the 1 bits of `s`, the first name standing at bit `k` (R175). -/
def matchedNames (s : Byte) : Nat → List String → List String
  | _, [] => []
  | k, n :: ns => if s.getLsbD k then n :: matchedNames s (k + 1) ns else matchedNames s (k + 1) ns

/-- `EVT.RENDER`, list form (R175, R177). -/
def evtNames (t : EventTable) (s : Byte) : List String := matchedNames s 0 (eventNames t)

/-- `EVT.RENDER`, text form (R176). -/
def evtText (t : EventTable) (s : Byte) : String := String.intercalate "|" (evtNames t s)

/-! ## The GPS validator -/

/-- `LAT_BOUND` (R8). -/
abbrev latBound : Int := 850000000

/-- `LNG_BOUND` (R8). -/
abbrev lngBound : Int := 1800000000

/-- `ANGLE_MAX` (R8). -/
abbrev angleMax : Nat := 360

/-- `CHK.LAT` (R190): signed and strict at both ends. -/
def chkLat (v : BitVec 32) : Bool := decide (-latBound < v.toInt) && decide (v.toInt < latBound)

/-- `CHK.LNG` (R191): signed and strict at both ends. -/
def chkLng (v : BitVec 32) : Bool := decide (-lngBound < v.toInt) && decide (v.toInt < lngBound)

/-- `CHK.ANGLE` (R192): the product does not wrap. -/
def chkAngle (a : Byte) : Bool := decide (2 * a.toNat ≤ angleMax)

/-! ## Codes of the status registers -/

/-- The 2-bit code of `PHASE` (R21). -/
def Phase.code : Phase → BitVec 2
  | .idle => 0 | .run => 1 | .done => 2 | .fail => 3

/-- The 3-bit code of `ERR` (R240). -/
def ErrorKind.code : ErrorKind → BitVec 3
  | .noError => 0 | .malformedHex => 1 | .frameTooShort => 2 | .unrecognizedHeader => 3 | .fieldOutOfRange => 4
  | .incompleteField => 5 | .badDigit => 6

end Sys2Proof.Machine
end

