-- ==== Sys2Proof/Machine/Operands.lean ====
section
/-! DEFINITION. The field extractor: the kinds of R72, and one rule per field of a data frame (R120 to R153). -/

namespace Sys2Proof.Machine

/-! ## Field kinds (R10, R72, R73) -/

/-- `U8`: the byte of a one-byte field. -/
def u8 (bs : List Byte) : Byte := bs.headD 0

/-- `BE` (R10, R53): the byte at the lowest address is the most significant. -/
def be (bs : List Byte) : Nat := bs.foldl (fun acc b => 256 * acc + b.toNat) 0

/-- The high nibble `b[7:4]` (R9). -/
def highNibble (b : Byte) : Nibble := b.extractLsb' 4 4

/-- The low nibble `b[3:0]` (R9). -/
def lowNibble (b : Byte) : Nibble := b.extractLsb' 0 4

/-- `NIBBLES` (R10): high nibble first. -/
def nibbles : List Byte → List Nibble
  | [] => []
  | b :: bs => highNibble b :: lowNibble b :: nibbles bs

/-- `HEXCHAR` (R10): '0'..'9', 'A'..'F'. -/
def hexChar (d : Nibble) : Byte :=
  if d.toNat ≤ 9 then BitVec.ofNat 8 (0x30 + d.toNat) else BitVec.ofNat 8 (0x41 + (d.toNat - 10))

/-- `HEXSTR` (R10). -/
def hexStr (bs : List Byte) : Chars := (nibbles bs).map hexChar

/-- `DEC` (R10): the digits as one decimal number; `none` when a nibble is above 9. -/
def dec (ds : List Nibble) : Option Nat :=
  if ds.all (fun d => decide (d.toNat ≤ 9)) then some (ds.foldl (fun acc d => 10 * acc + d.toNat) 0) else none

/-- `ASCII` (R10): the bytes taken as character codes, unchanged. -/
def ascii (bs : List Byte) : Chars := bs

/-! ## The rules of the 28 fields

A rule gets the field's bytes and what is staged so far, and stages its values or raises a failure with the field's
number (R247). -/

/-- A decode failure: its kind, and the number `ERRFIELD` takes. -/
abbrev Failure := ErrorKind × BitVec 6

/-- What a field's rule answers. -/
abbrev FieldResult := Except Failure Staged

/-- R120, field 1. -/
def stageProtocolHeader (bs : List Byte) (st : Staged) : FieldResult := .ok { st with protocolHeader := u8 bs }

/-- R121, field 2. -/
def stageTerminalId (bs : List Byte) (st : Staged) : FieldResult := .ok { st with terminalId := hexStr bs }

/-- R122, field 3. -/
def stageProtocolVersion (bs : List Byte) (st : Staged) : FieldResult := .ok { st with protocolVersion := u8 bs }

/-- R123, field 4: `NIB2` (R74). -/
def stageTypes (bs : List Byte) (st : Staged) : FieldResult :=
  .ok { st with deviceType := highNibble (u8 bs), dataType := lowNibble (u8 bs) }

/-- R124, field 5: consumed, staged nowhere (R77). -/
def stageRecordLength (_ : List Byte) (st : Staged) : FieldResult := .ok st

/-- R125, field 6. -/
def stageDate (bs : List Byte) (st : Staged) : FieldResult :=
  .ok { st with dateTimeBytes := bs, record := { st.record with date := hexStr bs } }

/-- R131: `utimeMillis` of the six date and time bytes, `none` when a digit is above 9. -/
def utimeMillis (src : UtimeSrc) (bs : List Byte) : Option Nat :=
  match src with
  | .dateTime12 => dec (nibbles bs)
  | .uninterpreted => some (Config.freeUtime bs).val

/-- R126, field 7, and after it R131 (reported as field 29) and R132. -/
def stageTime (cfg : Config) (bs : List Byte) (st : Staged) : FieldResult :=
  match utimeMillis cfg.utimeSrc (st.dateTimeBytes ++ bs) with
  | none => .error (.badDigit, 29)
  | some ms =>
    .ok { st with
      dateTimeBytes := st.dateTimeBytes ++ bs
      record := { st.record with
        time := hexStr bs, utimeMillis := BitVec.ofNat 40 ms, utimeSeconds := BitVec.ofNat 30 (ms / 1000) } }

/-- R127, field 8. -/
def stageLatitude (bs : List Byte) (st : Staged) : FieldResult :=
  match dec (nibbles bs) with
  | none => .error (.badDigit, 8)
  | some v =>
    if chkLat (BitVec.ofNat 32 v) then .ok { st with record := { st.record with latRaw := BitVec.ofNat 32 v } }
    else .error (.fieldOutOfRange, 8)

/-- R128 and R129, field 9: nine digits, and the tenth nibble as the direction indicator. -/
def stageLongitude (bs : List Byte) (st : Staged) : FieldResult :=
  match dec ((nibbles bs).take 9) with
  | none => .error (.badDigit, 9)
  | some v =>
    if chkLng (BitVec.ofNat 32 v) then
      .ok { st with record := { st.record with
        lngRaw := BitVec.ofNat 32 v, directionIndicator := hexChar (((nibbles bs).drop 9).headD 0) } }
    else .error (.fieldOutOfRange, 9)

/-- R130, field 10. -/
def stageSpeed (bs : List Byte) (st : Staged) : FieldResult := .ok { st with record := { st.record with speed := u8 bs } }

/-- R133, field 11: the raw unit is kept. -/
def stageAngle (bs : List Byte) (st : Staged) : FieldResult :=
  if chkAngle (u8 bs) then .ok { st with record := { st.record with angle := u8 bs } }
  else .error (.fieldOutOfRange, 11)

/-- R136, field 12. -/
def stageMileage (bs : List Byte) (st : Staged) : FieldResult :=
  .ok { st with record := { st.record with distanceKm := BitVec.ofNat 32 (be bs) } }

/-- R137, field 13. -/
def stageVisibleSatellites (bs : List Byte) (st : Staged) : FieldResult :=
  .ok { st with record := { st.record with visibleSatellites := u8 bs } }

/-- R138, field 14. -/
def stageBindVehicleId (bs : List Byte) (st : Staged) : FieldResult := .ok { st with bindVehicleId := hexStr bs }

/-- R139, field 15. -/
def stageHighEventByte (bs : List Byte) (st : Staged) : FieldResult :=
  .ok { st with record := { st.record with highEvents := u8 bs } }

/-- R140, field 16. -/
def stageLowEventByte (bs : List Byte) (st : Staged) : FieldResult :=
  .ok { st with record := { st.record with lowEvents := u8 bs } }

/-- R141, field 17. -/
def stageBatteryLevel (bs : List Byte) (st : Staged) : FieldResult :=
  .ok { st with record := { st.record with batteryLevelPercent := u8 bs } }

/-- R142, field 18. -/
def stageCellIdPositionCode (bs : List Byte) (st : Staged) : FieldResult :=
  .ok { st with record := { st.record with cellIdPositionCode := BitVec.ofNat 32 (be bs) } }

/-- R143, field 19. -/
def stageGsmSignalQuality (bs : List Byte) (st : Staged) : FieldResult :=
  .ok { st with record := { st.record with gsmSignalQuality := u8 bs } }

/-- R144, field 20. -/
def stageFenceAlarmId (bs : List Byte) (st : Staged) : FieldResult :=
  .ok { st with record := { st.record with fenceAlarmId := u8 bs } }

/-- R145, field 21. -/
def stageExpandedDeviceStatus (bs : List Byte) (st : Staged) : FieldResult :=
  .ok { st with record := { st.record with expandedDeviceStatus := u8 bs } }

/-- R146, field 22. -/
def stageMncHighByte (bs : List Byte) (st : Staged) : FieldResult :=
  .ok { st with record := { st.record with mncHighByte := u8 bs } }

/-- R147, field 23. -/
def stageExpandedDeviceStatus2 (bs : List Byte) (st : Staged) : FieldResult :=
  .ok { st with record := { st.record with expandedDeviceStatus2 := u8 bs } }

/-- R149, field 24 (`HEXS`); R156 under `ASCII15` (`CHARS`). -/
def stageImei (mode : ImeiMode) (bs : List Byte) (st : Staged) : FieldResult :=
  match mode with
  | .hex8 => .ok { st with imei := hexStr bs }
  | .ascii15 => .ok { st with imei := ascii bs }

/-- R150, field 25: skipped. -/
def stageReservedCellId (_ : List Byte) (st : Staged) : FieldResult := .ok st

/-- R151, field 26. -/
def stageMcc (bs : List Byte) (st : Staged) : FieldResult :=
  .ok { st with record := { st.record with mcc := BitVec.ofNat 16 (be bs) } }

/-- R152, field 27. -/
def stageMncLowByte (bs : List Byte) (st : Staged) : FieldResult :=
  .ok { st with record := { st.record with mncLowByte := u8 bs } }

/-- R153, field 28. -/
def stageSerialNo (bs : List Byte) (st : Staged) : FieldResult :=
  .ok { st with record := { st.record with serialNo := u8 bs } }

/-- The rules of fields 1 to 28, in layout order (R76). -/
def fieldRules (cfg : Config) : List (List Byte → Staged → FieldResult) :=
  [stageProtocolHeader, stageTerminalId, stageProtocolVersion, stageTypes, stageRecordLength, stageDate,
   stageTime cfg, stageLatitude, stageLongitude, stageSpeed, stageAngle, stageMileage, stageVisibleSatellites,
   stageBindVehicleId, stageHighEventByte, stageLowEventByte, stageBatteryLevel, stageCellIdPositionCode,
   stageGsmSignalQuality, stageFenceAlarmId, stageExpandedDeviceStatus, stageMncHighByte,
   stageExpandedDeviceStatus2, stageImei cfg.imeiMode, stageReservedCellId, stageMcc, stageMncLowByte, stageSerialNo]

/-- A step starts with nothing staged. Every value here is overwritten before the commit. -/
def Staged.empty : Staged where
  protocolHeader := 0
  protocolVersion := 0
  imei := []
  terminalId := []
  deviceType := 0
  dataType := 0
  bindVehicleId := []
  dateTimeBytes := []
  record :=
    { utimeMillis := 0, utimeSeconds := 0, date := [], time := [], latRaw := 0, lngRaw := 0, directionIndicator := 0,
      speed := 0, angle := 0, distanceKm := 0, visibleSatellites := 0, cellIdPositionCode := 0, mcc := 0,
      mncHighByte := 0, mncLowByte := 0, gsmSignalQuality := 0, fenceAlarmId := 0, expandedDeviceStatus := 0,
      expandedDeviceStatus2 := 0, batteryLevelPercent := 0, serialNo := 0, highEvents := 0, lowEvents := 0 }

/-- R154's loop: field `k` is the first of the fields still to come. A field that does not fit raises
`IncompleteField`; the first failure ends the work. -/
def runFields : Nat → List (List Byte → Staged → FieldResult) → List (List Byte) → Staged → FieldResult
  | _, [], _, st => .ok st
  | k, _ :: _, [], _ => .error (.incompleteField, BitVec.ofNat 6 k)
  | k, rule :: rules, f :: fs, st =>
    match rule f st with
    | .error e => .error e
    | .ok st' => runFields (k + 1) rules fs st'

/-- `DataFrame` (R154): the staged values of a data frame's fields, or the first failure in layout order. -/
def dataFrame (cfg : Config) (fields : List (List Byte)) : FieldResult :=
  runFields 1 (fieldRules cfg) fields Staged.empty

/-! ## The pure accessors of a record (R41) -/

/-- `cellId(r)`: the high 16 bits. -/
def Record.cellId (r : Record) : BitVec 16 := r.cellIdPositionCode.extractLsb' 16 16

/-- `lac(r)`: the low 16 bits. -/
def Record.lac (r : Record) : BitVec 16 := r.cellIdPositionCode.extractLsb' 0 16

end Sys2Proof.Machine
end

