-- ==== Sys2Proof/Machine/Ops.lean ====
section
/-! DEFINITION. The shared operations: reading and writing `BUF`, fetching, the host's reply, fresh results, failure
entry, and the commit of a data frame. -/

namespace Sys2Proof.Machine

/-! ## The input buffer -/

/-- The canonical form: addresses strictly rising. An unlisted address has no value, so no entry can equal what an
unlisted address reads as. -/
abbrev Memory.wf (m : Memory) : Prop := List.Pairwise (fun x y => x.1 < y.1) m

/-- `BUF[a]` (R10): `none` where the buffer holds no value. -/
def Memory.read : Memory → Nat → Option Byte
  | [], _ => none
  | c :: m, a => if c.1 = a then some c.2 else Memory.read m a

/-- `BUF[a] <- b`, by the host's `LOAD` only (R52). -/
def Memory.write : Memory → Nat → Byte → Memory
  | [], a, b => [(a, b)]
  | c :: m, a, b =>
    if a < c.1 then (a, b) :: c :: m
    else if a = c.1 then (a, b) :: m
    else c :: Memory.write m a b

/-- `MemRead(a, n)` (R10), earliest address first: the bytes, or the first address that holds no value. -/
def Memory.readBytes (m : Memory) : Nat → Nat → Except Nat (List Byte)
  | _, 0 => .ok []
  | a, n + 1 =>
    match Memory.read m a with
    | none => .error a
    | some b =>
      match Memory.readBytes m (a + 1) n with
      | .error e => .error e
      | .ok bs => .ok (b :: bs)

/-- The bytes of a sequence, stored from address `a` up. -/
def Memory.writeBytes (m : Memory) : Nat → List Byte → Memory
  | _, [] => m
  | a, b :: bs => Memory.writeBytes (Memory.write m a b) (a + 1) bs

/-! ## Fetch -/

/-- The valid bytes from the cursor on (R50, R63): what the decoder may look at. Nothing at or above `LEN` is read. -/
def State.window (s : State) : Except Nat (List Byte) := Memory.readBytes s.mem s.cur (s.len - s.cur)

/-- The instruction at the cursor (R102), or why there is none. -/
def State.fetch (s : State) : Except Fault Instr :=
  match s.window with
  | .error a => .error (.bufferHoldsNoValue a)
  | .ok bytes =>
    match decode s.cfg.imeiMode bytes with
    | .error _ => .error (.cursorPastEnd s.cur)
    | .ok r => .ok r.1

/-! ## The host side -/

/-- The next turn is taken off the agenda. -/
def State.popTurn (s : State) : State := { s with agenda := s.agenda.tail }

/-- An answer for the host. -/
def State.answer (s : State) (r : Reply) : State := { s with reply := some r }

/-- `LOAD`'s effect (R273). -/
def State.loaded (s : State) (bytes : List Byte) : State :=
  { s with mem := Memory.writeBytes s.mem 0 bytes, len := bytes.length }

/-- `RESET`'s effect (R270): every state element at its reset value; the configuration and the host side stay. -/
def State.hostReset (s : State) : State := State.resetWith s.cfg s.agenda s.reply

/-! ## The walk -/

/-- The first line of `START` (R100): results and error registers fresh, the cursor at 0. -/
def State.fresh (s : State) : State :=
  { s with
    cur := 0, err := .noError, errField := 0, errPos := 0, msg := Msg.reset s.cfg.imeiMode, recs := [] }

/-- Failure entry, `raise E(field)` (R246), in one indivisible action: the error registers, `PHASE`, and all results
at their reset values. `ERRPOS` saves the cursor; there is no handler and the cursor stays. -/
def State.raise (s : State) (f : Failure) : State :=
  { s with
    phase := .fail, err := f.1, errField := f.2, errPos := s.cur, msg := Msg.reset s.cfg.imeiMode, recs := [] }

/-- The last two lines of `START` (R100): the header register, and `RUN`. There is no return from a failure: `FAIL` is
left by `START` and `RESET` only (R252, R253). -/
def State.begin (s : State) (header : Byte) : State :=
  { s with phase := .run, msg := { s.msg with protocolHeader := header } }

/-- The cursor moves forward (R110). -/
def State.advance (s : State) (n : Nat) : State := { s with cur := s.cur + n }

/-- What a heartbeat frame writes (R103). -/
def State.heartbeat (s : State) (tid : Chars) : State :=
  { s with msg := { s.msg with containsHealthcheck := true, terminalId := tid } }

/-- The commit of a data frame (R155). -/
def State.commit (s : State) (st : Staged) : State :=
  { s with
    msg := { s.msg with
      protocolHeader := st.protocolHeader, terminalId := st.terminalId, protocolVersion := st.protocolVersion
      deviceType := st.deviceType, dataType := st.dataType, bindVehicleId := st.bindVehicleId, imei := st.imei }
    recs := s.recs ++ [st.record] }

/-- The walk ends (R108). -/
def State.finish (s : State) : State := { s with phase := .done }

end Sys2Proof.Machine
end

