-- ==== Sys2Proof/Machine/Frames.lean ====
section
/-! DEFINITION. The meanings of the four frame rows (R103 to R106). Only the walk runs them, at `PHASE = RUN`; they do
not test `PHASE` again (log entry 13). -/

namespace Sys2Proof.Machine

/-- What an instruction answers. -/
abbrev Answer := Host.Outcome State Fault Refusal

/-- `HBEAT` (R103): the flag, the identifier, and 16 bytes on. -/
def execHbeat (tid _unnamed : List Byte) (s : State) : Answer :=
  .next ((s.heartbeat (ascii tid)).advance hbLen)

/-- `CMD` (R104): past the closing marker, or `IncompleteField` of field 30 when there is none. -/
def execCmd (body : List Byte) (closed : Bool) (s : State) : Answer :=
  if closed then .next (s.advance (body.length + 2)) else .next (s.raise (.incompleteField, 30))

/-- `DATA` (R105, R154, R155): the first failure in layout order, or the commit and `DATA_LEN` bytes on. -/
def execData (fields : List (List Byte)) (_cut : List Byte) (s : State) : Answer :=
  match dataFrame s.cfg fields with
  | .error e => .next (s.raise e)
  | .ok st => .next ((s.commit st).advance (dataLen s.cfg.imeiMode))

/-- `ILLEGAL` (R106): `UnrecognizedHeader`, field 1. -/
def execIllegal (_marker : Byte) (s : State) : Answer := .next (s.raise (.unrecognizedHeader, 1))

end Sys2Proof.Machine
end

