-- ==== Sys2Proof/Machine/HostOps.lean ====
section
/-! DEFINITION. The meanings of the host operations (R100, R270 to R276). -/

namespace Sys2Proof.Machine

/-- `RESET` (R270): accepted in every phase. -/
def execReset (s : State) : Answer := .next s.hostReset

/-- `LOAD` (R273): ignored during `RUN`, refused beyond `BUF_MAX`. During `RUN` it is ignored whatever its length
(log entry 12). -/
def execLoad (bytes : List Byte) (s : State) : Answer :=
  if s.phase = .run then .next s
  else if bytes.length ≤ s.cfg.bufMax then .next (s.loaded bytes)
  else .refused (.loadLongerThanBuffer bytes.length)

/-- `START` (R100): ignored during `RUN`; the size test before the header test; `BUF[0]` is read only after the size
test. -/
def execStart (s : State) : Answer :=
  if s.phase = .run then .next s
  else if s.len < minLen then .next (s.fresh.raise (.frameTooShort, 0))
  else
    match Memory.read s.mem 0 with
    | none => .fault (.bufferHoldsNoValue 0)
    | some b =>
      if b = markerData ∨ b = markerParen then .next (s.fresh.begin b)
      else .next (s.fresh.raise (.unrecognizedHeader, 1))

/-- What `POLL` sees (R275): `PHASE`, and at `FAIL` the error registers. -/
def State.pollView (s : State) : Reply :=
  .poll s.phase.code
    (if s.phase = .fail then some { err := s.err.code, errField := s.errField, errPos := s.errPos } else none)

/-- `POLL` (R275): always accepted. -/
def execPoll (s : State) : Answer := .next (s.answer s.pollView)

/-- A field of a record as `READ` returns it (R32 to R45), and the accessors of R41. -/
def Record.get (r : Record) : RecordField → ReadValue
  | .utimeMillis => .num r.utimeMillis.toNat
  | .utimeSeconds => .num r.utimeSeconds.toNat
  | .date => .chars r.date
  | .time => .chars r.time
  | .latRaw => .num r.latRaw.toNat
  | .lngRaw => .num r.lngRaw.toNat
  | .directionIndicator => .chars [r.directionIndicator]
  | .speed => .num r.speed.toNat
  | .angle => .num r.angle.toNat
  | .distanceKm => .num r.distanceKm.toNat
  | .visibleSatellites => .num r.visibleSatellites.toNat
  | .cellIdPositionCode => .num r.cellIdPositionCode.toNat
  | .cellId => .num r.cellId.toNat
  | .lac => .num r.lac.toNat
  | .mcc => .num r.mcc.toNat
  | .mncHighByte => .num r.mncHighByte.toNat
  | .mncLowByte => .num r.mncLowByte.toNat
  | .gsmSignalQuality => .num r.gsmSignalQuality.toNat
  | .fenceAlarmId => .num r.fenceAlarmId.toNat
  | .expandedDeviceStatus => .num r.expandedDeviceStatus.toNat
  | .expandedDeviceStatus2 => .num r.expandedDeviceStatus2.toNat
  | .batteryLevelPercent => .num r.batteryLevelPercent.toNat
  | .serialNo => .num r.serialNo.toNat
  | .highEvents => .num r.highEvents.toNat
  | .lowEvents => .num r.lowEvents.toNat

/-- A result register by name (R276); `none` for a record at or above the number of records. -/
def readResult (msg : Msg) (recs : List Record) : ReadName → Option ReadValue
  | .protocolHeader => some (.num msg.protocolHeader.toNat)
  | .protocolVersion => some (.num msg.protocolVersion.toNat)
  | .imei => some (.chars msg.imei)
  | .terminalId => some (.chars msg.terminalId)
  | .deviceType => some (.num msg.deviceType.toNat)
  | .dataType => some (.num msg.dataType.toNat)
  | .bindVehicleId => some (.chars msg.bindVehicleId)
  | .containsHealthcheck => some (.bit msg.containsHealthcheck)
  | .nrec => some (.num recs.length)
  | .record i f => recs[i]?.map (fun r => r.get f)

/-- The read port (R49, R276): the results at `DONE`; the reset values with `NREC = 0` at `IDLE` and `FAIL`
(log entry 16). -/
def State.readView (s : State) (name : ReadName) : Option ReadValue :=
  if s.phase = .done then readResult s.msg s.recs name else readResult (Msg.reset s.cfg.imeiMode) [] name

/-- The record index a name carries. -/
def readIndex : ReadName → Nat
  | .record i _ => i
  | .protocolHeader | .protocolVersion | .imei | .terminalId | .deviceType | .dataType | .bindVehicleId
  | .containsHealthcheck | .nrec => 0

/-- `READ` (R276): refused during `RUN`, and past the records. -/
def execRead (name : ReadName) (s : State) : Answer :=
  if s.phase = .run then .refused .readWhileRunning
  else
    match s.readView name with
    | some v => .next (s.answer (.read v))
    | none => .refused (.readPastRecords (readIndex name))

end Sys2Proof.Machine
end

