-- ==== Sys2Proof/Machine/Ports.lean ====
section
/-! DEFINITION. The meanings of the port operations (R173 to R178, R190 to R192, R277): in any phase, reading no
JTFP state and writing none; the value goes to the host. -/

namespace Sys2Proof.Machine

/-- `EVT.HAS` (R173). -/
def execEvtHas (set : Byte) (f : EventFlag) (s : State) : Answer := .next (s.answer (.evtHas (evtHas set f)))

/-- `EVT.ADD` (R174): no register of JTFP is written. -/
def execEvtAdd (set : Byte) (f : EventFlag) (s : State) : Answer := .next (s.answer (.evtAdd (evtAdd set f)))

/-- `EVT.RENDER` (R175, R176): list form and text form. -/
def execEvtRender (t : EventTable) (set : Byte) (s : State) : Answer :=
  .next (s.answer (.evtRender (evtNames t set) (evtText t set)))

/-- `CHK.LAT` (R190). -/
def execChkLat (v : BitVec 32) (s : State) : Answer := .next (s.answer (.check (chkLat v)))

/-- `CHK.LNG` (R191). -/
def execChkLng (v : BitVec 32) (s : State) : Answer := .next (s.answer (.check (chkLng v)))

/-- `CHK.ANGLE` (R192). -/
def execChkAngle (a : Byte) (s : State) : Answer := .next (s.answer (.check (chkAngle a)))

end Sys2Proof.Machine
end

