-- ==== Sys2Proof/Machine/Projector.lean ====
section
/-! DEFINITION. The HumanProjector reference functions (R215 to R226): host software, pure, over values the host
supplies. Fractions are exact and results are scaled integers (log entry 15). -/

namespace Sys2Proof.Machine

/-- `protocolVersionLabel` (R215). -/
def versionLabel (cfg : Config) (v : Byte) : String := if v = cfg.versionJT701D then "JT701D" else "JT701"

/-- `deviceTypeLabel` (R216). -/
def deviceLabel (t : Nibble) : String := if t = 1 then "Regular rechargeable JT701" else "Unknown"

/-- `dataTypeLabel` (R217). -/
def dataLabel (t : Nibble) : DataTypeLabel :=
  if t = 1 then .positional
  else if t = 2 then .alarm
  else if t = 3 then .blindArea
  else if t = 4 then .subNew
  else .unknown

/-- `round6` (R225) of the non-negative rational `num / den`, in millionths: the nearest, a tie away from zero. -/
def round6 (num den : Nat) : Nat := (2 * (num * 1000000) + den) / (2 * den)

/-- `coordinateDegrees` (R218) in millionths of a degree. The sum of degrees and minutes is put over the common
denominator 60 * 10_000. -/
def coordinate (raw : Nat) : Nat :=
  let degrees := raw / 1000000
  let minutes := raw % 1000000 / 10000
  let fraction := raw % 10000
  round6 (degrees * 600000 + (minutes * 10000 + fraction)) 600000

/-- `speedKmh` (R220) in millionths of a km/h. -/
def speed (raw : Byte) : Nat := round6 (raw.toNat * 185) 100

/-- `angleDegrees` (R221). -/
def degrees (raw : Byte) : Nat := 2 * raw.toNat

/-- `gsmSignalQualityLabel` (R222). -/
def gsmQuality (v : Byte) : Nat := if v = 0 then 99 else v.toNat

/-! ## `dateLabel` -/

/-- A decimal digit character's value. -/
def decimalDigit (c : Byte) : Option Nat :=
  if 0x30 ≤ c.toNat ∧ c.toNat ≤ 0x39 then some (c.toNat - 0x30) else none

/-- Two characters read as a two-digit decimal number. -/
def twoDigits (c d : Byte) : Option Nat :=
  match decimalDigit c, decimalDigit d with
  | some hi, some lo => some (10 * hi + lo)
  | _, _ => none

/-- The days a month has in every year. -/
def daysInEveryYear (month : Nat) : Nat :=
  if month = 2 then 28 else if month = 4 ∨ month = 6 ∨ month = 9 ∨ month = 11 then 30 else 31

/-- Day, month and year of the six characters DDMMYY (R219). -/
def dateNumbers : Chars → Option (Nat × Nat × Nat)
  | [d1, d0, m1, m0, y1, y0] =>
    match twoDigits d1 d0, twoDigits m1 m0, twoDigits y1 y0 with
    | some d, some m, some y => some (d, m, y)
    | _, _, _ => none
  | _ => none

/-- `dateLabel` (R219, U9): malformed for a day outside 1..31 or a month outside 1..12; a day the month may not have
is left open (log entry 10). -/
def calendarDate (date : Chars) : DateResult :=
  match dateNumbers date with
  | none => .malformed
  | some (d, m, y) =>
    if 1 ≤ d ∧ d ≤ 31 ∧ 1 ≤ m ∧ m ≤ 12 then
      if d ≤ daysInEveryYear m ∨ Config.calendarAccepts d m y = true then .ok d m y (Config.dateText d m y)
      else .malformed
    else .malformed

/-! ## `directionIndicatorLabel` and `deviceStatusLabels` -/

/-- The nibble of a direction indicator character (R223, R36). -/
def directionNibble (ch : Byte) : Nibble :=
  if 0x30 ≤ ch.toNat ∧ ch.toNat ≤ 0x39 then BitVec.ofNat 4 (ch.toNat - 0x30)
  else if 0x41 ≤ ch.toNat ∧ ch.toNat ≤ 0x46 then BitVec.ofNat 4 (ch.toNat - 0x41 + 10)
  else Config.directionNibbleOutside ch

/-- The boolean of one meaning: its bit of the nibble, under `DIR_BITS` (R223). -/
def directionFlag (n : Nibble) (m : DirectionMeaning) : Bool := n.getLsbD (Config.directionBit m.index).val

/-- What a meaning's boolean says, under its polarity (U12). -/
def directionSense (n : Nibble) (m : DirectionMeaning) : Bool :=
  directionFlag n m == Config.directionPolarity m.index

/-- `directionIndicatorLabel` (R223): the four booleans and the text. -/
def directionLabel (ch : Byte) : Reply :=
  let n := directionNibble ch
  .direction (directionFlag n .fixValid) (directionFlag n .northSouth) (directionFlag n .eastWest)
    (directionFlag n .fixedValue)
    (Config.directionText (directionSense n .fixValid) (directionSense n .northSouth) (directionSense n .eastWest)
      (directionSense n .fixedValue))

/-- `deviceStatusLabels` (R224, U5): one name per 1 bit, as a set. -/
def statusFlags (v : BitVec 16) : List (Nat × String) :=
  (List.finRange 16).filterMap fun k => if v.getLsbD k.val then some (k.val, Config.statusFlagName k) else none

/-! ## The meanings -/

/-- `protocolVersionLabel` (R215). -/
def execProtocolVersionLabel (v : Byte) (s : State) : Answer := .next (s.answer (.label (versionLabel s.cfg v)))

/-- `deviceTypeLabel` (R216). -/
def execDeviceTypeLabel (t : Nibble) (s : State) : Answer := .next (s.answer (.label (deviceLabel t)))

/-- `dataTypeLabel` (R217). -/
def execDataTypeLabel (t : Nibble) (s : State) : Answer := .next (s.answer (.dataType (dataLabel t)))

/-- `coordinateDegrees` (R218). -/
def execCoordinateDegrees (raw : Nat) (s : State) : Answer := .next (s.answer (.millionths (coordinate raw)))

/-- `dateLabel` (R219): a malformed date fails this call and nothing else (R254). -/
def execDateLabel (date : Chars) (s : State) : Answer := .next (s.answer (.date (calendarDate date)))

/-- `speedKmh` (R220). -/
def execSpeedKmh (raw : Byte) (s : State) : Answer := .next (s.answer (.millionths (speed raw)))

/-- `angleDegrees` (R221). -/
def execAngleDegrees (raw : Byte) (s : State) : Answer := .next (s.answer (.number (degrees raw)))

/-- `gsmSignalQualityLabel` (R222). -/
def execGsmSignalQualityLabel (v : Byte) (s : State) : Answer := .next (s.answer (.number (gsmQuality v)))

/-- `directionIndicatorLabel` (R223). -/
def execDirectionIndicatorLabel (ch : Byte) (s : State) : Answer := .next (s.answer (directionLabel ch))

/-- `deviceStatusLabels` (R224). -/
def execDeviceStatusLabels (v : BitVec 16) (s : State) : Answer := .next (s.answer (.statusFlags (statusFlags v)))

end Sys2Proof.Machine
end

