-- ==== Sys2Proof/Machine/Splitter.lean ====
section
/-! DEFINITION. The host-side FrameSplitter (R200 to R207). A character of a text is any character (log entry 18). -/

namespace Sys2Proof.Machine

/-- White space (R200): space, tab, line feed, vertical tab, form feed, carriage return. -/
def isWhiteSpace (c : Char) : Bool := [0x20, 0x09, 0x0A, 0x0B, 0x0C, 0x0D].contains c.toNat

/-- The value of a hex digit in either letter case (R200). -/
def hexDigit (c : Char) : Option Nibble :=
  let n := c.toNat
  if 0x30 ≤ n ∧ n ≤ 0x39 then some (BitVec.ofNat 4 (n - 0x30))
  else if 0x41 ≤ n ∧ n ≤ 0x46 then some (BitVec.ofNat 4 (n - 0x41 + 10))
  else if 0x61 ≤ n ∧ n ≤ 0x66 then some (BitVec.ofNat 4 (n - 0x61 + 10))
  else none

/-- Two hex digits make one byte, the first the high nibble (R200); `none` for an odd length or a character that is no
hex digit. -/
def hexDecode : HexText → Option (List Byte)
  | [] => some []
  | [_] => none
  | c :: d :: rest =>
    match hexDigit c, hexDigit d, hexDecode rest with
    | some hi, some lo, some bs => some ((hi ++ lo) :: bs)
    | _, _, _ => none

/-- R201 step 1: the pieces between the occurrences of "24", scanned left to right without overlap. `seg` is the piece
being read, latest character first. -/
def splitMarker (seg : HexText) : HexText → List HexText
  | [] => [seg.reverse]
  | [c] => [(c :: seg).reverse]
  | c :: d :: rest =>
    if c = '2' ∧ d = '4' then seg.reverse :: splitMarker [] rest
    else splitMarker (c :: seg) (d :: rest)

/-- R201 steps 1 to 3: the pieces, white space removed, the empty ones dropped. -/
def segments (text : HexText) : List HexText :=
  ((splitMarker [] text).map (·.filter (fun c => !isWhiteSpace c))).filter (fun seg => !seg.isEmpty)

/-- R201 step 4: the first piece that is not well-formed hex. -/
def firstMalformed (segs : List HexText) : Option HexText := segs.find? (fun seg => (hexDecode seg).isNone)

/-- `SPLIT` (R201). -/
def split (text : HexText) : SplitResult :=
  match firstMalformed (segments text) with
  | some seg => .malformedHex seg
  | none => .ok ((segments text).map (fun seg => '2' :: '4' :: seg))

/-- `SPLIT` as the host runs it: the splitter has no state. -/
def execSplit (text : HexText) (s : State) : Answer := .next (s.answer (.split (split text)))

end Sys2Proof.Machine
end

