-- ==== Sys2Proof/Machine/Dispatch.lean ====
section
/-! DEFINITION. One arm per instruction, each a call of its meaning. -/

namespace Sys2Proof.Machine

def exec (i : Instr) (s : State) : Host.Outcome State Fault Refusal :=
  match i with
  | .hbeat tid unnamed => Sys2Proof.Machine.execHbeat tid unnamed s
  | .cmd body closed => Sys2Proof.Machine.execCmd body closed s
  | .data fields cut => Sys2Proof.Machine.execData fields cut s
  | .illegal marker => Sys2Proof.Machine.execIllegal marker s
  | .reset => Sys2Proof.Machine.execReset s
  | .load bytes => Sys2Proof.Machine.execLoad bytes s
  | .start => Sys2Proof.Machine.execStart s
  | .poll => Sys2Proof.Machine.execPoll s
  | .read name => Sys2Proof.Machine.execRead name s
  | .evtHas set f => Sys2Proof.Machine.execEvtHas set f s
  | .evtAdd set f => Sys2Proof.Machine.execEvtAdd set f s
  | .evtRender t set => Sys2Proof.Machine.execEvtRender t set s
  | .chkLat v => Sys2Proof.Machine.execChkLat v s
  | .chkLng v => Sys2Proof.Machine.execChkLng v s
  | .chkAngle a => Sys2Proof.Machine.execChkAngle a s
  | .split text => Sys2Proof.Machine.execSplit text s
  | .protocolVersionLabel v => Sys2Proof.Machine.execProtocolVersionLabel v s
  | .deviceTypeLabel t => Sys2Proof.Machine.execDeviceTypeLabel t s
  | .dataTypeLabel t => Sys2Proof.Machine.execDataTypeLabel t s
  | .coordinateDegrees raw => Sys2Proof.Machine.execCoordinateDegrees raw s
  | .dateLabel date => Sys2Proof.Machine.execDateLabel date s
  | .speedKmh raw => Sys2Proof.Machine.execSpeedKmh raw s
  | .angleDegrees raw => Sys2Proof.Machine.execAngleDegrees raw s
  | .gsmSignalQualityLabel v => Sys2Proof.Machine.execGsmSignalQualityLabel v s
  | .directionIndicatorLabel ch => Sys2Proof.Machine.execDirectionIndicatorLabel ch s
  | .deviceStatusLabels v => Sys2Proof.Machine.execDeviceStatusLabels v s

end Sys2Proof.Machine
end

