-- ==== Sys2Proof/Machine/Step.lean ====
section
/-! DEFINITION. One step of the machine: the turn of the decoder or of the host (R13, R101). -/

namespace Sys2Proof.Machine

/-- The decoder's turn (R101): while `PHASE = RUN`, finish at `CUR = LEN` (R108), else run the frame at the cursor.
In every other phase the decoder does not move. -/
def walk (s : State) : Host.Outcome State Fault Refusal :=
  if s.phase = .run then
    if s.cur = s.len then .next s.finish
    else
      match s.fetch with
      | .error f => .fault f
      | .ok i => exec i s
  else .next s

/-- One step: the oldest turn on the agenda; with an empty agenda, the decoder's. -/
def step (s : State) : Host.Outcome State Fault Refusal :=
  match s.agenda with
  | [] => walk s
  | .decoder :: _ => walk s.popTurn
  | .host op :: _ => exec op.instr s.popTurn

/-- `s` with a table word's bytes stored at the cursor as the rest of the buffer, the decoder running, and the next
turn the decoder's. This stands for the host's `LOAD` and `START` of a buffer (log entry 4). -/
def State.withFetchWord (s : State) (nbits w : Nat) : State :=
  let bytes := tableBytes s.cfg.imeiMode nbits w
  { s with
    agenda := .decoder :: s.agenda
    mem := Memory.writeBytes s.mem s.cur bytes
    len := s.cur + bytes.length
    phase := .run }

end Sys2Proof.Machine
end

