-- ==== Sys2Proof/Machine/BigStep.lean ====
section
/-! DEFINITION. The whole decode as one function of the buffer (R112), by addresses and offsets. The step rules are
stated to refine it; no step calls it. -/

namespace Sys2Proof.Machine

/-- What is observable of a decode (R14): a message with its records, or one failure with what `POLL` shows of it. -/
inductive DecodeResult where
  | ok (msg : Msg) (recs : List Record)
  | fail (kind : ErrorKind) (field : BitVec 6) (pos : Nat)
  deriving DecidableEq, Repr

/-- `buf[a..a+n-1]`. -/
def slice (buf : List Byte) (a n : Nat) : List Byte := (buf.drop a).take n

/-- The least index `j > c` with `buf[j] = 0x29` (R112). -/
def firstClose (buf : List Byte) (c : Nat) : Option Nat :=
  (List.range buf.length).find? fun j => decide (c < j) && decide (buf[j]? = some markerClose)

/-- `DataFrame(buf, c)` (R154): the fields at `off_k`, of `size_k` bytes, up to the first with
`off_k + size_k > LEN - c`. -/
def dataFrameAt (cfg : Config) (buf : List Byte) (c : Nat) : FieldResult :=
  let places := (fieldOffsets cfg.imeiMode).zip (fieldSizes cfg.imeiMode)
  let fitting := places.takeWhile fun p => decide (p.1 + p.2 ≤ buf.length - c)
  dataFrame cfg (fitting.map fun p => slice buf (c + p.1) p.2)

/-- The message with a data frame's seven values (R155). -/
def Msg.withStaged (msg : Msg) (st : Staged) : Msg :=
  { msg with
    protocolHeader := st.protocolHeader, terminalId := st.terminalId, protocolVersion := st.protocolVersion
    deviceType := st.deviceType, dataType := st.dataType, bindVehicleId := st.bindVehicleId, imei := st.imei }

/-- The loop of R112. Every frame is at least one byte long, so `buf.length + 1` rounds are enough; `none` says that
they were not. -/
def decodeLoop (cfg : Config) (buf : List Byte) : Nat → Nat → Msg → List Record → Option DecodeResult
  | 0, _, _, _ => none
  | fuel + 1, c, msg, recs =>
    match buf[c]? with
    | none => some (.ok msg recs)
    | some b =>
      if b = markerParen then
        if 16 ≤ buf.length - c ∧ slice buf (c + 13) 3 = trailer then
          decodeLoop cfg buf fuel (c + 16)
            { msg with containsHealthcheck := true, terminalId := slice buf (c + 1) 10 } recs
        else
          match firstClose buf c with
          | none => some (.fail .incompleteField 30 c)
          | some j => decodeLoop cfg buf fuel (j + 1) msg recs
      else if b = markerData then
        match dataFrameAt cfg buf c with
        | .error e => some (.fail e.1 e.2 c)
        | .ok st => decodeLoop cfg buf fuel (c + dataLen cfg.imeiMode) (msg.withStaged st) (recs ++ [st.record])
      else some (.fail .unrecognizedHeader 1 c)

/-- `Decode(buf)` (R112). -/
def decodeBuffer (cfg : Config) (buf : List Byte) : Option DecodeResult :=
  if buf.length < 16 then some (.fail .frameTooShort 0 0)
  else
    match buf.head? with
    | none => some (.fail .frameTooShort 0 0)
    | some b =>
      if b = markerData ∨ b = markerParen then
        decodeLoop cfg buf (buf.length + 1) 0 { Msg.reset cfg.imeiMode with protocolHeader := b } []
      else some (.fail .unrecognizedHeader 1 0)

end Sys2Proof.Machine
end

