-- ==== Sys2Proof/Safety.lean ====
section
/-! DEFINITION. What claims about whole runs are stated in: the state invariant, the observation of a decode, and the
outcomes a run may have. -/

namespace Sys2Proof.Machine

/-! ## The invariant of the state -/

/-- The characters `HEXCHAR` gives (R10). -/
abbrev isHexChar (c : Byte) : Prop := 0x30 ≤ c.toNat ∧ c.toNat ≤ 0x39 ∨ 0x41 ≤ c.toNat ∧ c.toNat ≤ 0x46

/-- The string registers keep their lengths (R12, R26, R27, R29). -/
abbrev Msg.sized (mode : ImeiMode) (m : Msg) : Prop :=
  m.imei.length = imeiChars mode ∧ m.terminalId.length = 10 ∧ m.bindVehicleId.length = 8

/-- What holds of every record (R33 to R36, R38). -/
abbrev Record.legal (r : Record) : Prop :=
  r.date.length = 6 ∧ r.time.length = 6 ∧ r.utimeMillis.toNat ≤ 999999999999 ∧
  r.utimeSeconds.toNat = r.utimeMillis.toNat / 1000 ∧ r.latRaw.toNat ≤ 99999999 ∧ r.lngRaw.toNat ≤ 999999999 ∧
  isHexChar r.directionIndicator ∧ r.angle.toNat ≤ 180

/-- `BUF` is in canonical form, within its capacity, and holds a value at every address below `LEN` (R23, R50). -/
abbrev State.bufferOk (s : State) : Prop :=
  s.mem.wf ∧ (∀ c ∈ s.mem, c.1 < s.cfg.bufMax) ∧ s.len ≤ s.cfg.bufMax ∧
  ∀ a < s.len, (Memory.read s.mem a).isSome = true

/-- The cursor and `ERRPOS` (R22, R46): within `CW` bits always, within the loaded bytes during `RUN`. -/
abbrev State.cursorOk (s : State) : Prop :=
  s.cur ≤ s.cfg.bufMax ∧ s.errPos ≤ s.cfg.bufMax ∧ (s.phase = .run → s.cur ≤ s.len ∧ minLen ≤ s.len)

/-- The error registers (R46, R100, R240, R241): at their reset values outside `FAIL`; at `FAIL` one of the kinds JTFP
raises. -/
abbrev State.errorOk (s : State) : Prop :=
  (s.phase ≠ .fail → s.err = .noError ∧ s.errField = 0 ∧ s.errPos = 0) ∧
  (s.phase = .fail → s.err ≠ .noError ∧ s.err ≠ .malformedHex)

/-- The results (R24, R48, R49): at the reset values at `IDLE` and `FAIL`; a legal header at `RUN` and `DONE`. -/
abbrev State.resultsOk (s : State) : Prop :=
  s.msg.sized s.cfg.imeiMode ∧ (∀ r ∈ s.recs, r.legal) ∧
  (s.phase = .idle ∨ s.phase = .fail → s.msg = Msg.reset s.cfg.imeiMode ∧ s.recs = []) ∧
  (s.phase = .run ∨ s.phase = .done → s.msg.protocolHeader = markerData ∨ s.msg.protocolHeader = markerParen)

/-- The record store never overflows (R31): each record has consumed `DATA_LEN` bytes of the walk. -/
abbrev State.storeOk (s : State) : Prop :=
  s.nrec ≤ recMax s.cfg ∧ (s.phase = .run → s.nrec * dataLen s.cfg.imeiMode ≤ s.cur)

/-- The invariant: what holds at reset and after every step. -/
abbrev State.Inv (s : State) : Prop := s.bufferOk ∧ s.cursorOk ∧ s.errorOk ∧ s.resultsOk ∧ s.storeOk

/-! ## Outcomes and observations -/

/-- The machine goes on. -/
def goesOn : Answer → Prop
  | .next _ => True
  | .fault _ => False
  | .refused _ => False

/-- The machine has not stopped with a fault. -/
def noFault : Answer → Prop
  | .fault _ => False
  | .next _ | .refused _ => True

/-- The end of a decode (R108). -/
def State.ended (s : State) : Prop := s.phase = .done ∨ s.phase = .fail

/-- What the host can observe at the end of a decode (R14, R275, R276); `none` before it. -/
def State.observed (s : State) : Option DecodeResult :=
  match s.phase with
  | .done => some (.ok s.msg s.recs)
  | .fail => some (.fail s.err s.errField s.errPos)
  | .idle | .run => none

/-- Two states that agree on everything of JTFP: they may differ in the agenda and in the host's last answer only. -/
def State.sameHardware (s t : State) : Prop := { s with agenda := t.agenda, reply := t.reply } = t

/-- Several steps, stopping at the first fault or refusal. -/
def runSteps : Nat → State → Answer
  | 0, s => .next s
  | k + 1, s =>
    match step s with
    | .next t => runSteps k t
    | .fault f => .fault f
    | .refused r => .refused r

/-! ## Whose turn it is -/

/-- The next turn is the decoder's (R13, R101). -/
def State.decoderMoves (s : State) : Prop := s.agenda = [] ∨ s.agenda.head? = some .decoder

/-- The next turn is the host's, with this operation (R278). -/
def State.hostIssues (s : State) (i : Instr) : Prop := ∃ op, s.agenda.head? = some (.host op) ∧ op.instr = i

/-! ## Values, said apart from the functions that compute them -/

/-- R53: `sum b_i * 256^(n-1-i)`. -/
def bigEndianSum (bs : List Byte) : Nat :=
  ((List.range bs.length).map fun i => (bs.getD i 0).toNat * 256 ^ (bs.length - 1 - i)).sum

/-- R73: `sum d_i * 10^(k-1-i)`. -/
def decimalSum (ds : List Nibble) : Nat :=
  ((List.range ds.length).map fun i => (ds.getD i 0).toNat * 10 ^ (ds.length - 1 - i)).sum

/-- Every nibble is a decimal digit. -/
def allDigits (ds : List Nibble) : Prop := ∀ d ∈ ds, d.toNat ≤ 9

/-- R200, R201 step 4: even length, and hex digits in either letter case. -/
def hexWellFormed (seg : HexText) : Prop :=
  seg.length % 2 = 0 ∧ ∀ c ∈ seg, c ∈ ['0', '1', '2', '3', '4', '5', '6', '7', '8', '9', 'a', 'b', 'c', 'd', 'e', 'f',
    'A', 'B', 'C', 'D', 'E', 'F']

/-- The marker text "24" stands somewhere in the text (R200). -/
def hasMarker (text : HexText) : Prop := ∃ a b, text = a ++ '2' :: '4' :: b

/-- The causes for which a data frame's values can fail after its field `k` has been read, in order, with whether
each holds (R127, R128, R131, R133). -/
def valueCauses (cfg : Config) (fields : List (List Byte)) : Nat → List (Failure × Bool)
  | 7 => [((.badDigit, 29), decide (cfg.utimeSrc = .dateTime12) &&
            (nibbles (fields.getD 5 [] ++ fields.getD 6 [])).any fun d => decide (9 < d.toNat))]
  | 8 => [((.badDigit, 8), (nibbles (fields.getD 7 [])).any fun d => decide (9 < d.toNat))]
  | 9 => [((.badDigit, 9), ((nibbles (fields.getD 8 [])).take 9).any fun d => decide (9 < d.toNat))]
  | 11 => [((.fieldOutOfRange, 11), (fields.getD 10 []).any fun b => decide (180 < b.toNat))]
  | _ => []

/-- Every cause for which a data frame can fail, in the order of R154: field by field, first that the field is there. -/
def failureCauses (cfg : Config) (fields : List (List Byte)) : List (Failure × Bool) :=
  (List.range 28).flatMap fun k =>
    ((.incompleteField, BitVec.ofNat 6 (k + 1)), decide (fields.length ≤ k)) :: valueCauses cfg fields (k + 1)

end Sys2Proof.Machine
end

