-- ==== Sys2Proof/Certificates/Slice0/Obligations.lean ====
section
/-! DEFINITION. The statements about the model, from the rules of spec/. -/

open Sys2Proof Sys2Proof.Machine

/-! ## Encoding -/

/-- R71, R76, R79, R80: no bit of a frame is dropped. Every well-formed frame instruction, with every operand, is read
back from its own bytes, nothing left over. -/
def Obligations.DecodeOfEncodeIsTheInstruction : Prop :=
  ∀ (mode : ImeiMode) (i : Instr) (bytes : List Byte),
    i.wellFormed mode = true → encode i = some bytes → decode mode bytes = .ok (i, [])

/-- R81: what a decoded instruction encodes to is what was read; its bytes and the rest are the input. -/
def Obligations.EncodeOfDecodeIsTheBytes : Prop :=
  ∀ (mode : ImeiMode) (bytes rest : List Byte) (i : Instr),
    decode mode bytes = .ok (i, rest) →
    i.isHostOp = false ∧ i.wellFormed mode = true ∧ ∃ own, encode i = some own ∧ own ++ rest = bytes

/-- R71, R86: the classification and the opcode table's match and mask agree on every byte sequence. -/
def Obligations.ClassificationAgreesWithOpcodeTable : Prop :=
  ∀ (m : Byte) (bs : List Byte), classify m bs = tableKind (m :: bs)

/-- R82: each of the 254 markers outside 0x24 and 0x28 is illegal, whatever follows it. -/
def Obligations.OtherMarkersAreIllegal : Prop :=
  ∀ (mode : ImeiMode) (m : Byte) (bs : List Byte), m ≠ 0x24 → m ≠ 0x28 →
    decode mode (m :: bs) = .ok (.illegal m, bs)

/-- R76, R156: the fields of a whole data frame are its bytes at the offsets and sizes of the table, and the bytes
after `DATA_LEN` are not its own. -/
def Obligations.DataFrameFieldsSitAtTheirOffsets : Prop :=
  ∀ (f : List Byte), f.head? = some 0x24 → 62 ≤ f.length →
    decode .hex8 f = .ok (.data
      [slice f 0 1, slice f 1 5, slice f 6 1, slice f 7 1, slice f 8 2, slice f 10 3, slice f 13 3, slice f 16 4,
       slice f 20 5, slice f 25 1, slice f 26 1, slice f 27 4, slice f 31 1, slice f 32 4, slice f 36 1, slice f 37 1,
       slice f 38 1, slice f 39 4, slice f 43 1, slice f 44 1, slice f 45 1, slice f 46 1, slice f 47 1, slice f 48 8,
       slice f 56 2, slice f 58 2, slice f 60 1, slice f 61 1] [], f.drop 62)

/-- R76, R8, R156: the offsets are the running sums of the sizes; `DATA_LEN` is 62, and 69 under `ASCII15`. -/
def Obligations.LayoutOffsetsAndFrameLengths : Prop :=
  fieldOffsets .hex8 = [0, 1, 6, 7, 8, 10, 13, 16, 20, 25, 26, 27, 31, 32, 36, 37, 38, 39, 43, 44, 45, 46, 47, 48, 56,
    58, 60, 61] ∧
  (fieldOffsets .ascii15).drop 23 = [48, 63, 65, 67, 68] ∧ (fieldOffsets .ascii15).take 23 = (fieldOffsets .hex8).take 23 ∧
  (fieldSizes .hex8).sum = 62 ∧ dataLen .hex8 = 62 ∧ (fieldSizes .ascii15).sum = 69 ∧ dataLen .ascii15 = 69

/-- R79, R80, R82, R87: words written out from the spec's encodings decode to the instructions they stand for. -/
def Obligations.WrittenOutWordsDecode : Prop :=
  decode .hex8 [0x28, 0x37, 0x30, 0x30, 0x30, 0x33, 0x31, 0x33, 0x33, 0x33, 0x34, 0x2C, 0x40, 0x4A, 0x54, 0x29] =
    .ok (.hbeat [0x37, 0x30, 0x30, 0x30, 0x33, 0x31, 0x33, 0x33, 0x33, 0x34] [0x2C, 0x40], []) ∧
  decode .hex8 [0x28, 0x50, 0x30, 0x34, 0x29, 0x24] = .ok (.cmd [0x50, 0x30, 0x34] true, [0x24]) ∧
  decode .hex8 [0x28, 0x41, 0x41] = .ok (.cmd [0x41, 0x41] false, []) ∧
  decode .hex8 [0x24, 0x80, 0x00, 0x62, 0x00, 0x11, 0x19, 0x11, 0x00, 0x34, 0x18, 0x04, 0x21, 0x16, 0x22, 0x59] =
    .ok (.data [[0x24], [0x80, 0x00, 0x62, 0x00, 0x11], [0x19], [0x11], [0x00, 0x34], [0x18, 0x04, 0x21],
      [0x16, 0x22, 0x59]] [], []) ∧
  decode .hex8 [0x25, 0x00] = .ok (.illegal 0x25, [0x00])

/-! ## Field kinds -/

/-- R72, R73, R53: the nibbles of a field stand high nibble first; a digit string is the sum of its digits times powers of ten and exists exactly when every nibble is
a decimal digit; a binary field is the sum of its bytes times powers of 256. -/
def Obligations.DigitStringsAndBinaryFieldsHaveTheirValues : Prop :=
  (∀ (bs : List Byte) (k : Nat) (h : k < bs.length), (nibbles bs)[2 * k]? = some (highNibble bs[k]) ∧
    (nibbles bs)[2 * k + 1]? = some (lowNibble bs[k]) ∧ (nibbles bs).length = 2 * bs.length) ∧
  (∀ ds : List Nibble, allDigits ds → dec ds = some (decimalSum ds) ∧ decimalSum ds < 10 ^ ds.length) ∧
  (∀ ds : List Nibble, ¬ allDigits ds → dec ds = none) ∧
  (∀ bs : List Byte, be bs = bigEndianSum bs ∧ bigEndianSum bs < 2 ^ (8 * bs.length))

/-- R10: `HEXSTR` has two characters per byte, the high nibble's first, each the upper-case hex digit. -/
def Obligations.HexStringsSpellTheirBytes : Prop :=
  (∀ bs : List Byte, (hexStr bs).length = 2 * bs.length ∧
    ∀ k (h : k < bs.length), (hexStr bs)[2 * k]? = some (hexChar (highNibble bs[k])) ∧
      (hexStr bs)[2 * k + 1]? = some (hexChar (lowNibble bs[k]))) ∧
  (∀ b : Byte, (highNibble b).toNat = b.toNat / 16 ∧ (lowNibble b).toNat = b.toNat % 16) ∧
  (∀ d : Nibble, (hexChar d).toNat = if d.toNat ≤ 9 then 0x30 + d.toNat else 0x41 + (d.toNat - 10))

/-! ## One step -/

/-- R101, R102: on the decoder's turn at `RUN`, with `bytes` the valid bytes from the cursor to `LEN`, the step is the
meaning of the instruction they decode to, in the state with that turn taken off the agenda. -/
def Obligations.StepRunsTheDecodedInstruction : Prop :=
  ∀ (s : State) (bytes rest : List Byte) (i : Instr),
    s.decoderMoves → s.phase = .run → bytes.length = s.len - s.cur →
    (∀ k (h : k < bytes.length), Memory.read s.mem (s.cur + k) = some bytes[k]) →
    decode s.cfg.imeiMode bytes = .ok (i, rest) →
    step s = exec i { s with agenda := s.agenda.tail }

/-- R278: on the host's turn the step is the meaning of the operation it issued, in every phase. -/
def Obligations.HostTurnRunsTheOperation : Prop :=
  ∀ (s : State) (i : Instr), s.hostIssues i → step s = exec i { s with agenda := s.agenda.tail }

/-- R101, R108: at `CUR = LEN` the walk finishes and nothing but `PHASE` changes; outside `RUN` the decoder does not
move. -/
def Obligations.WalkFinishesAtTheEndAndRestsOutsideRun : Prop :=
  ∀ s : State, s.decoderMoves →
    (s.phase = .run → s.cur = s.len → step s = .next { s with agenda := s.agenda.tail, phase := .done }) ∧
    (s.phase ≠ .run → step s = .next { s with agenda := s.agenda.tail })

/-- R108: the only way to `DONE` from another phase is the decoder's turn at `CUR = LEN`. -/
def Obligations.DoneIsReachedOnlyAtTheEndOfTheBuffer : Prop :=
  ∀ s t : State, step s = .next t → s.phase ≠ .done → t.phase = .done →
    s.decoderMoves ∧ s.phase = .run ∧ s.cur = s.len

/-- R21: the transitions of `PHASE`, and who makes each. -/
def Obligations.PhaseMovesOnlyAsListed : Prop :=
  ∀ s t : State, step s = .next t →
    t.phase = s.phase ∨
    (s.hostIssues .reset ∧ t.phase = .idle) ∨
    (s.hostIssues .start ∧ s.phase ≠ .run ∧ (t.phase = .run ∨ t.phase = .fail)) ∨
    (s.decoderMoves ∧ s.phase = .run ∧ (t.phase = .done ∨ t.phase = .fail))

/-- R49: the results of a decode at `DONE` stay until the host's next `START` or `RESET`. -/
def Obligations.ResultsStayUntilStartOrReset : Prop :=
  ∀ s t : State, step s = .next t → s.phase = .done →
    (t.phase = .done ∧ t.msg = s.msg ∧ t.recs = s.recs) ∨ s.hostIssues .start ∨ s.hostIssues .reset

/-! ## Frames -/

/-- R103: a heartbeat frame sets the flag, writes the 10 bytes after its marker to the identifier as they are and
moves the cursor by 16, and changes nothing else: no other register, no record, no byte of the buffer. The instruction
the decoder reads carries those 10 bytes and the two unexamined ones, and the bytes after the 16 are not its own. -/
def Obligations.HeartbeatFrameEffect : Prop :=
  (∀ (s : State) (tid unnamed : List Byte),
    exec (.hbeat tid unnamed) s =
      .next { s with msg := { s.msg with containsHealthcheck := true, terminalId := tid }, cur := s.cur + 16 }) ∧
  (∀ (mode : ImeiMode) (f : List Byte),
    f.head? = some 0x28 → 16 ≤ f.length → slice f 13 3 = [0x4A, 0x54, 0x29] →
    decode mode f = .ok (.hbeat (slice f 1 10) (slice f 11 2), f.drop 16))

/-- R104: a command frame, from its bytes. With the first 0x29 at offset `j` the cursor goes one past it and nothing
else changes; with none, the decode fails with `IncompleteField` of field 30 at the frame's start. -/
def Obligations.CommandFrameEndsAtTheFirstClosingMarker : Prop :=
  ∀ (mode : ImeiMode) (s : State) (bs : List Byte), isHeartbeat (0x28 :: bs) = false →
    (∀ j, bs[j]? = some 0x29 → (∀ k < j, bs[k]? ≠ some 0x29) →
      ∃ i, decode mode (0x28 :: bs) = .ok (i, bs.drop (j + 1)) ∧
        exec i s = .next { s with cur := s.cur + (j + 2) }) ∧
    (0x29 ∉ bs →
      ∃ i, decode mode (0x28 :: bs) = .ok (i, []) ∧
        exec i s = .next { s with
          phase := .fail, err := .incompleteField, errField := 30, errPos := s.cur
          msg := Msg.reset s.cfg.imeiMode, recs := [] })

/-- R104: the meaning of `CMD` completes for every closed frame, and fails for every other. -/
def Obligations.CommandFrameEffect : Prop :=
  ∀ (s : State) (body : List Byte),
    exec (.cmd body true) s = .next { s with cur := s.cur + (body.length + 2) } ∧
    exec (.cmd body false) s = .next { s with
      phase := .fail, err := .incompleteField, errField := 30, errPos := s.cur
      msg := Msg.reset s.cfg.imeiMode, recs := [] }

/-- R105, R120 to R153, R155: a data frame with all 28 fields and legal values writes the seven message registers,
appends one record with the values of its fields, moves the cursor by `DATA_LEN`, and changes nothing else. In both
IMEI layouts and under both sources of `utimeMillis`. -/
def Obligations.LegalDataFrameIsCommitted : Prop :=
  ∀ (s : State) (tid rl date time lat lng mil bind cell imei res mcc : List Byte)
    (ver types spd ang sat hi lo bat gsm fen ex1 mncHi ex2 mncLo ser : Byte),
    tid.length = 5 → rl.length = 2 → date.length = 3 → time.length = 3 → lat.length = 4 → lng.length = 5 →
    mil.length = 4 → bind.length = 4 → cell.length = 4 → imei.length = imeiBytes s.cfg.imeiMode → res.length = 2 →
    mcc.length = 2 →
    (s.cfg.utimeSrc = .dateTime12 → allDigits (nibbles (date ++ time))) → allDigits (nibbles lat) →
    allDigits ((nibbles lng).take 9) → ang.toNat ≤ 180 →
    ∃ ms : Nat,
      (ms = match s.cfg.utimeSrc with
        | .dateTime12 => decimalSum (nibbles (date ++ time))
        | .uninterpreted => (Config.freeUtime (date ++ time)).val) ∧
      exec (.data [[0x24], tid, [ver], [types], rl, date, time, lat, lng, [spd], [ang], mil, [sat], bind, [hi], [lo],
          [bat], cell, [gsm], [fen], [ex1], [mncHi], [ex2], imei, res, mcc, [mncLo], [ser]] []) s =
        .next { s with
          cur := s.cur + (match s.cfg.imeiMode with | .hex8 => 62 | .ascii15 => 69)
          msg := { s.msg with
            protocolHeader := 0x24, protocolVersion := ver, terminalId := hexStr tid
            deviceType := highNibble types, dataType := lowNibble types, bindVehicleId := hexStr bind
            imei := match s.cfg.imeiMode with | .hex8 => hexStr imei | .ascii15 => imei }
          recs := s.recs ++ [{
            utimeMillis := BitVec.ofNat 40 ms, utimeSeconds := BitVec.ofNat 30 (ms / 1000)
            date := hexStr date, time := hexStr time
            latRaw := BitVec.ofNat 32 (decimalSum (nibbles lat))
            lngRaw := BitVec.ofNat 32 (decimalSum ((nibbles lng).take 9))
            directionIndicator := hexChar (lowNibble (lng.getD 4 0))
            speed := spd, angle := ang, distanceKm := BitVec.ofNat 32 (bigEndianSum mil)
            visibleSatellites := sat, cellIdPositionCode := BitVec.ofNat 32 (bigEndianSum cell)
            mcc := BitVec.ofNat 16 (bigEndianSum mcc), mncHighByte := mncHi, mncLowByte := mncLo
            gsmSignalQuality := gsm, fenceAlarmId := fen, expandedDeviceStatus := ex1, expandedDeviceStatus2 := ex2
            batteryLevelPercent := bat, serialNo := ser, highEvents := hi, lowEvents := lo }] }

/-- R154, R250 c: a data frame fails for the first of its causes in layout order, and commits when none holds. The
causes are the missing fields, the impossible digits and the angle; no latitude or longitude is out of range (R193). -/
def Obligations.DataFrameFailsForItsFirstCause : Prop :=
  ∀ (s : State) (fields : List (List Byte)) (cut : List Byte),
    (Instr.data fields cut).wellFormed s.cfg.imeiMode = true →
    (∀ c, (failureCauses s.cfg fields).find? (fun c => c.2) = some c →
      exec (.data fields cut) s = .next { s with
        phase := .fail, err := c.1.1, errField := c.1.2, errPos := s.cur
        msg := Msg.reset s.cfg.imeiMode, recs := [] }) ∧
    ((failureCauses s.cfg fields).find? (fun c => c.2) = none →
      ∃ t, exec (.data fields cut) s = .next t ∧ t.phase = s.phase ∧ t.nrec = s.nrec + 1 ∧
        t.recs.take s.nrec = s.recs ∧ t.cur = s.cur + dataLen s.cfg.imeiMode)

/-- R106, R243: a frame start that is neither 0x24 nor 0x28 fails the decode with `UnrecognizedHeader`, field 1. -/
def Obligations.IllegalMarkerFailsTheDecode : Prop :=
  ∀ (s : State) (m : Byte),
    exec (.illegal m) s = .next { s with
      phase := .fail, err := .unrecognizedHeader, errField := 1, errPos := s.cur
      msg := Msg.reset s.cfg.imeiMode, recs := [] }

/-- R52, R101: a frame, whatever its outcome, leaves every byte of the buffer, `LEN`, the configuration, the agenda
and the host's last answer unchanged. -/
def Obligations.FramesLeaveTheBufferAndTheHostAlone : Prop :=
  ∀ (s t : State) (i : Instr), i.isHostOp = false → exec i s = .next t →
    (∀ a, Memory.read t.mem a = Memory.read s.mem a) ∧ t.mem = s.mem ∧ t.len = s.len ∧ t.cfg = s.cfg ∧
    t.agenda = s.agenda ∧ t.reply = s.reply

/-- R101, R246: a failing decoder step records the kind, the field and the frame's start and clears every result; the
cursor, the buffer and `LEN` stay. -/
def Obligations.FailureEntryIsIndivisible : Prop :=
  ∀ s t : State, s.decoderMoves → s.phase = .run → step s = .next t → t.phase = .fail →
    (t.err = .unrecognizedHeader ∨ t.err = .fieldOutOfRange ∨ t.err = .incompleteField ∨ t.err = .badDigit) ∧
    t = { s with
      agenda := s.agenda.tail, phase := .fail, err := t.err, errField := t.errField, errPos := s.cur
      msg := Msg.reset s.cfg.imeiMode, recs := [] }

/-- R107: a frame step that does not fail moves the cursor forward by at least 2 and never past `LEN`. -/
def Obligations.FramesMoveTheCursorForward : Prop :=
  ∀ s t : State, s.Inv → s.decoderMoves → s.phase = .run → s.cur ≠ s.len → step s = .next t → t.phase ≠ .fail →
    s.cur + 2 ≤ t.cur ∧ t.cur ≤ s.len

/-- R63: a decoder step depends on no byte at or above `LEN`, and leaves the buffer as it is. -/
def Obligations.DecoderReadsNothingPastLen : Prop :=
  ∀ (s t : State) (other : Memory), s.decoderMoves → s.cur ≤ s.len →
    (∀ a < s.len, Memory.read other a = Memory.read s.mem a) →
    step s = .next t → t.mem = s.mem ∧ step { s with mem := other } = .next { t with mem := other }

/-! ## Host operations -/

/-- R270: `RESET`, in every phase, takes every state element to its reset value and leaves what is not JTFP's. What
`BUF` holds after it is not said. -/
def Obligations.ResetTakesEveryElementToItsResetValue : Prop :=
  ∀ s : State, ∃ m : Memory, exec .reset s = .next
    { cfg := s.cfg, agenda := s.agenda, reply := s.reply, mem := m, len := 0, cur := 0, phase := .idle
      err := .noError, errField := 0, errPos := 0, recs := []
      msg :=
        { protocolHeader := 0, protocolVersion := 0
          imei := List.replicate (match s.cfg.imeiMode with | .hex8 => 16 | .ascii15 => 15) 0
          terminalId := List.replicate 10 0, deviceType := 0, dataType := 0, bindVehicleId := List.replicate 8 0
          containsHealthcheck := false } }

/-- R273: `LOAD` outside `RUN`, within the capacity: the bytes at addresses 0 up, `LEN`, and nothing else; every
other address reads as before. During `RUN` it changes nothing. Beyond the capacity it is refused. (Where both hold,
log entry 12, nothing is said here.) -/
def Obligations.LoadFillsTheBuffer : Prop :=
  ∀ (s : State) (bytes : List Byte),
    (s.phase ≠ .run → bytes.length ≤ s.cfg.bufMax →
      ∃ t, exec (.load bytes) s = .next t ∧ t = { s with mem := t.mem, len := bytes.length } ∧
        (∀ k (h : k < bytes.length), Memory.read t.mem k = some bytes[k]) ∧
        (∀ a, bytes.length ≤ a → Memory.read t.mem a = Memory.read s.mem a)) ∧
    (s.phase = .run → bytes.length ≤ s.cfg.bufMax → exec (.load bytes) s = .next s) ∧
    (s.phase ≠ .run → s.cfg.bufMax < bytes.length →
      exec (.load bytes) s = .refused (.loadLongerThanBuffer bytes.length))

/-- R100: `START`. Outside `RUN`, with 16 bytes or more and a known header it makes everything fresh and runs; with
fewer it fails with `FrameTooShort` whatever the bytes; with another header it fails with `UnrecognizedHeader`. During
`RUN` it is ignored. -/
def Obligations.StartChecksSizeThenHeader : Prop :=
  ∀ s : State,
    (∀ b, s.phase ≠ .run → 16 ≤ s.len → Memory.read s.mem 0 = some b → b = 0x24 ∨ b = 0x28 →
      exec .start s = .next { s with
        phase := .run, cur := 0, err := .noError, errField := 0, errPos := 0, recs := []
        msg := { Msg.reset s.cfg.imeiMode with protocolHeader := b } }) ∧
    (s.phase ≠ .run → s.len < 16 →
      exec .start s = .next { s with
        phase := .fail, cur := 0, err := .frameTooShort, errField := 0, errPos := 0, recs := []
        msg := Msg.reset s.cfg.imeiMode }) ∧
    (∀ b, s.phase ≠ .run → 16 ≤ s.len → Memory.read s.mem 0 = some b → b ≠ 0x24 → b ≠ 0x28 →
      exec .start s = .next { s with
        phase := .fail, cur := 0, err := .unrecognizedHeader, errField := 1, errPos := 0, recs := []
        msg := Msg.reset s.cfg.imeiMode }) ∧
    (s.phase = .run → exec .start s = .next s)

/-- R100, R13: `START` depends on the buffer and the configuration alone. Two machines that hold the same of these
agree after it on every register, whatever decodes came before. -/
def Obligations.StartLeavesNothingOfEarlierDecodes : Prop :=
  ∀ s s' t : State, s.phase ≠ .run → s'.phase ≠ .run → s'.cfg = s.cfg → s'.len = s.len → s'.mem = s.mem →
    exec .start s = .next t →
    exec .start s' = .next { t with agenda := s'.agenda, reply := s'.reply }

/-- R275: `POLL` answers the code of `PHASE`, and at `FAIL` the codes of the error registers, in every phase, and
changes nothing of JTFP. `DONE` and `FAIL` stay until the host's next `START` or `RESET`. -/
def Obligations.PollReportsThePhaseAndTheFailure : Prop :=
  (∀ s : State, exec .poll s = .next { s with
    reply := some (.poll
      (match s.phase with | .idle => 0 | .run => 1 | .done => 2 | .fail => 3)
      (match s.phase with
        | .fail => some {
            err := match s.err with
              | .noError => 0 | .malformedHex => 1 | .frameTooShort => 2 | .unrecognizedHeader => 3
              | .fieldOutOfRange => 4 | .incompleteField => 5 | .badDigit => 6
            errField := s.errField, errPos := s.errPos }
        | .idle | .run | .done => none)) }) ∧
  (∀ s t : State, s.phase = .done ∨ s.phase = .fail → step s = .next t →
    t.phase = s.phase ∨ s.hostIssues .start ∨ s.hostIssues .reset)

/-- R276: at `DONE`, `READ` answers the message register it names, or `NREC`, and changes nothing of JTFP. -/
def Obligations.ReadAtDoneAnswersTheMessageRegister : Prop :=
  ∀ (s : State), s.phase = .done → ∀ (name : ReadName) (v : ReadValue),
    (name, v) ∈ [(ReadName.protocolHeader, ReadValue.num s.msg.protocolHeader.toNat),
      (.protocolVersion, .num s.msg.protocolVersion.toNat), (.imei, .chars s.msg.imei),
      (.terminalId, .chars s.msg.terminalId), (.deviceType, .num s.msg.deviceType.toNat),
      (.dataType, .num s.msg.dataType.toNat), (.bindVehicleId, .chars s.msg.bindVehicleId),
      (.containsHealthcheck, .bit s.msg.containsHealthcheck), (.nrec, .num s.recs.length)] →
    exec (.read name) s = .next { s with reply := some (.read v) }

/-- R276, R41: at `DONE`, `READ` of a field of a record below `NREC` answers that field of that record. R41 defines
the accessors `cellId` and `lac` as the high and the low half of `cellIdPositionCode`; that `READ` takes these two names
and answers them is the model's (log entry 8). -/
def Obligations.ReadAtDoneAnswersTheRecordField : Prop :=
  ∀ (s : State) (i : Nat) (r : Record), s.phase = .done → s.recs[i]? = some r →
    ∀ (f : RecordField) (v : ReadValue),
    (f, v) ∈ [(RecordField.utimeMillis, ReadValue.num r.utimeMillis.toNat), (.utimeSeconds, .num r.utimeSeconds.toNat),
      (.date, .chars r.date), (.time, .chars r.time), (.latRaw, .num r.latRaw.toNat), (.lngRaw, .num r.lngRaw.toNat),
      (.directionIndicator, .chars [r.directionIndicator]), (.speed, .num r.speed.toNat), (.angle, .num r.angle.toNat),
      (.distanceKm, .num r.distanceKm.toNat), (.visibleSatellites, .num r.visibleSatellites.toNat),
      (.cellIdPositionCode, .num r.cellIdPositionCode.toNat), (.cellId, .num (r.cellIdPositionCode.toNat / 65536)),
      (.lac, .num (r.cellIdPositionCode.toNat % 65536)), (.mcc, .num r.mcc.toNat),
      (.mncHighByte, .num r.mncHighByte.toNat), (.mncLowByte, .num r.mncLowByte.toNat),
      (.gsmSignalQuality, .num r.gsmSignalQuality.toNat), (.fenceAlarmId, .num r.fenceAlarmId.toNat),
      (.expandedDeviceStatus, .num r.expandedDeviceStatus.toNat),
      (.expandedDeviceStatus2, .num r.expandedDeviceStatus2.toNat),
      (.batteryLevelPercent, .num r.batteryLevelPercent.toNat), (.serialNo, .num r.serialNo.toNat),
      (.highEvents, .num r.highEvents.toNat), (.lowEvents, .num r.lowEvents.toNat)] →
    exec (.read (.record i f)) s = .next { s with reply := some (.read v) }

/-- R276, U15: `READ` is refused during `RUN` and for a record at or above `NREC`; at `IDLE` and `FAIL` it answers the
reset values, with `NREC = 0`. -/
def Obligations.ReadOutsideDone : Prop :=
  ∀ (s : State),
    (∀ name, s.phase = .run → exec (.read name) s = .refused .readWhileRunning) ∧
    (∀ i f, s.phase ≠ .run → s.phase ≠ .done ∨ s.nrec ≤ i →
      exec (.read (.record i f)) s = .refused (.readPastRecords i)) ∧
    (s.phase = .idle ∨ s.phase = .fail → ∀ (name : ReadName) (v : ReadValue),
      (name, v) ∈ [(ReadName.protocolHeader, ReadValue.num 0), (.protocolVersion, .num 0),
        (.imei, .chars (List.replicate (imeiChars s.cfg.imeiMode) 0)), (.terminalId, .chars (List.replicate 10 0)),
        (.deviceType, .num 0), (.dataType, .num 0), (.bindVehicleId, .chars (List.replicate 8 0)),
        (.containsHealthcheck, .bit false), (.nrec, .num 0)] →
      exec (.read name) s = .next { s with reply := some (.read v) })

/-- R277: a port operation gives one answer from every state, in every phase, a function of the configuration besides
its operands, and changes nothing but the host's last answer. That `SPLIT` and the projection functions (R5, R6, R201)
are turns of the host that do the same, reading no register and writing none, is the model's (log entry 15). -/
def Obligations.PortsAndHostFunctionsTouchNothing : Prop :=
  ∀ i : Instr, i.isHostOp = true → i ≠ .reset → (∀ bytes, i ≠ .load bytes) → i ≠ .start → i ≠ .poll →
    (∀ name, i ≠ .read name) →
    ∃ r : Config → Reply, ∀ s : State, exec i s = .next { s with reply := some (r s.cfg) }

/-! ## BitEventCodec and validator -/

/-- R173, R170, R171: `EVT.HAS` answers the bit of the set that the event's table gives it. -/
def Obligations.EvtHasTestsTheEventsBit : Prop :=
  ∀ (s : State) (set : Byte) (k : Nat),
    (∀ e, [HighByteLockEvent.LongTimeUnlocking, .WrongPassword, .Swipe, .LowBattery, .CoverOpen, .CoverClosed,
        .MotorStuck, .Reserved][k]? = some e →
      exec (.evtHas set (.high e)) s = .next { s with reply := some (.evtHas (set.getLsbD k)) }) ∧
    (∀ e, [LowByteLockEvent.BaseStationPositioning, .EnterFence, .ExitFence, .RopeCut, .Vibration, .AckRequired,
        .RopeInserted, .MotorLocked][k]? = some e →
      exec (.evtHas set (.low e)) s = .next { s with reply := some (.evtHas (set.getLsbD k)) })

/-- R174, R170, R171: `EVT.ADD` answers the set with the event's bit set and every other bit as it was. -/
def Obligations.EvtAddSetsTheEventsBit : Prop :=
  ∀ (s : State) (set : Byte) (k : Nat),
    (∀ e, [HighByteLockEvent.LongTimeUnlocking, .WrongPassword, .Swipe, .LowBattery, .CoverOpen, .CoverClosed,
        .MotorStuck, .Reserved][k]? = some e →
      ∃ r, exec (.evtAdd set (.high e)) s = .next { s with reply := some (.evtAdd r) } ∧
        ∀ j < 8, r.getLsbD j = (set.getLsbD j || decide (j = k))) ∧
    (∀ e, [LowByteLockEvent.BaseStationPositioning, .EnterFence, .ExitFence, .RopeCut, .Vibration, .AckRequired,
        .RopeInserted, .MotorLocked][k]? = some e →
      ∃ r, exec (.evtAdd set (.low e)) s = .next { s with reply := some (.evtAdd r) } ∧
        ∀ j < 8, r.getLsbD j = (set.getLsbD j || decide (j = k)))

/-- R175, R176, R177: `EVT.RENDER` answers the table's names at the 1 bits, bit 0 first, and those names joined by a
single `|`. -/
def Obligations.EvtRenderListsTheNamesInBitOrder : Prop :=
  ∀ (s : State) (t : EventTable) (set : Byte),
    ∃ names : List String,
      exec (.evtRender t set) s = .next { s with reply := some (.evtRender names (String.intercalate "|" names)) } ∧
      names = ((List.range 8).filter fun k => set.getLsbD k).map fun k =>
        (match t with
          | .high => ["LongTimeUnlocking", "WrongPassword", "Swipe", "LowBattery", "CoverOpen", "CoverClosed",
              "MotorStuck", "Reserved"]
          | .low => ["BaseStationPositioning", "EnterFence", "ExitFence", "RopeCut", "Vibration", "AckRequired",
              "RopeInserted", "MotorLocked"]).getD k ""

/-- R179: the laws of the codec. -/
def Obligations.EventCodecLaws : Prop :=
  (∀ (set : Byte) (f : EventFlag), evtHas (evtAdd set f) f = true) ∧
  (∀ (set : Byte) (e e' : HighByteLockEvent), e' ≠ e →
    evtHas (evtAdd set (.high e)) (.high e') = evtHas set (.high e')) ∧
  (∀ (set : Byte) (e e' : LowByteLockEvent), e' ≠ e →
    evtHas (evtAdd set (.low e)) (.low e') = evtHas set (.low e')) ∧
  (∀ (t : EventTable) (set : Byte),
    (evtNames t set).length = ((List.range 8).filter fun k => set.getLsbD k).length) ∧
  (∀ (t : EventTable) (a b : Byte), evtNames t a = evtNames t b → a = b)

/-- R190, R191, R192: the three range checks, with their strict and inclusive bounds. -/
def Obligations.RangeChecksDecideTheirBounds : Prop :=
  ∀ (s : State) (v : BitVec 32) (a : Byte),
    exec (.chkLat v) s = .next { s with
      reply := some (.check (decide (-850000000 < v.toInt ∧ v.toInt < 850000000))) } ∧
    exec (.chkLng v) s = .next { s with
      reply := some (.check (decide (-1800000000 < v.toInt ∧ v.toInt < 1800000000))) } ∧
    exec (.chkAngle a) s = .next { s with reply := some (.check (decide (a.toNat ≤ 180))) }

/-! ## FrameSplitter -/

/-- R201 step 1: the pieces rejoin with the marker text to the whole text, and no piece holds the marker text. -/
def Obligations.SplitterCutsAtEveryMarker : Prop :=
  ∀ text : HexText,
    ((splitMarker [] text).intersperse ['2', '4']).flatten = text ∧
    ∀ piece ∈ splitMarker [] text, ¬ hasMarker piece

/-- R201: of a text whose pieces between the occurrences of "24" are `raw`, white space is removed and empty pieces
are dropped; the first piece that is not well-formed hex fails the whole operation and is the one named; otherwise every
piece comes back, in order, with "24" before it. -/
def Obligations.SplitAnswersAllPiecesOrTheFirstMalformed : Prop :=
  ∀ (s : State) (raw pieces : List HexText),
    raw ≠ [] → (∀ piece ∈ raw, ¬ hasMarker piece) →
    pieces = (raw.map (·.filter fun c =>
      decide (c.toNat ∉ [0x20, 0x09, 0x0A, 0x0B, 0x0C, 0x0D]))).filter (fun p => !p.isEmpty) →
    ((∀ p ∈ pieces, hexWellFormed p) →
      exec (.split (raw.intersperse ['2', '4']).flatten) s =
        .next { s with reply := some (.split (.ok (pieces.map fun p => '2' :: '4' :: p))) }) ∧
    (∀ before bad after, pieces = before ++ bad :: after → (∀ p ∈ before, hexWellFormed p) → ¬ hexWellFormed bad →
      exec (.split (raw.intersperse ['2', '4']).flatten) s =
        .next { s with reply := some (.split (.malformedHex bad)) })

/-- R205: a text of N frames, each the marker and a non-empty well-formed body in which the marker text does not
stand, comes back as exactly those N frames, in order. -/
def Obligations.SplitterReturnsMarkerFreeFrames : Prop :=
  ∀ (s : State) (bodies : List HexText),
    (∀ b ∈ bodies, b ≠ [] ∧ hexWellFormed b ∧ ¬ hasMarker b) →
    exec (.split (bodies.map fun b => '2' :: '4' :: b).flatten) s =
      .next { s with reply := some (.split (.ok (bodies.map fun b => '2' :: '4' :: b))) }

/-! ## HumanProjector reference functions -/

/-- R215, R216, R217, R222: the table lookups. -/
def Obligations.LabelsOfCodes : Prop :=
  ∀ (s : State) (v : Byte) (t : Nibble),
    exec (.protocolVersionLabel v) s = .next { s with
      reply := some (.label (if v = s.cfg.versionJT701D then "JT701D" else "JT701")) } ∧
    exec (.deviceTypeLabel t) s = .next { s with
      reply := some (.label (if t.toNat = 1 then "Regular rechargeable JT701" else "Unknown")) } ∧
    exec (.dataTypeLabel t) s = .next { s with
      reply := some (.dataType (match t.toNat with
        | 1 => .positional | 2 => .alarm | 3 => .blindArea | 4 => .subNew | _ => .unknown)) } ∧
    exec (.gsmSignalQualityLabel v) s = .next { s with
      reply := some (.number (if v.toNat = 0 then 99 else v.toNat)) }

/-- R218, R225: `coordinateDegrees` is degrees plus minutes over 60, rounded to the nearest millionth, a tie away from
zero. -/
def Obligations.CoordinateDegreesIsTheRoundedRational : Prop :=
  ∀ (s : State) (raw : Nat), ∃ n : Nat,
    exec (.coordinateDegrees raw) s = .next { s with reply := some (.millionths n) } ∧
    ∀ x : ℚ, x = ((raw / 1000000 : Nat) : ℚ) +
        (((raw % 1000000 / 10000 : Nat) : ℚ) + ((raw % 10000 : Nat) : ℚ) / 10000) / 60 →
      x - 1 / 2000000 < (n : ℚ) / 1000000 ∧ (n : ℚ) / 1000000 ≤ x + 1 / 2000000

/-- R221: `angleDegrees` is twice the raw unit. Beyond 180, which no record holds, this is the model's choice (log
entry 15). -/
def Obligations.AngleDegreesDoublesTheRawUnit : Prop :=
  ∀ (s : State) (raw : Byte), exec (.angleDegrees raw) s = .next { s with reply := some (.number (2 * raw.toNat)) }

/-- R220: `speedKmh` is exactly 1.85 times the raw unit. -/
def Obligations.SpeedIsExact : Prop :=
  ∀ (s : State) (raw : Byte), ∃ n : Nat,
    exec (.speedKmh raw) s = .next { s with reply := some (.millionths n) } ∧
    (n : ℚ) / 1000000 = (raw.toNat : ℚ) * (185 / 100)

/-- R219, U9: `dateLabel` of six decimal digits answers day, month and year where every month has that day, and fails
where the day is outside 1..31 or the month outside 1..12; every call completes. The text is free (log entry 10). -/
def Obligations.DateLabelAnswersOrFailsTheCall : Prop :=
  ∀ (s : State) (date : Chars), ∃ r : DateResult,
    exec (.dateLabel date) s = .next { s with reply := some (.date r) } ∧
    ∀ d1 d0 m1 m0 y1 y0 : Fin 10,
      date = [BitVec.ofNat 8 (0x30 + d1), BitVec.ofNat 8 (0x30 + d0), BitVec.ofNat 8 (0x30 + m1),
        BitVec.ofNat 8 (0x30 + m0), BitVec.ofNat 8 (0x30 + y1), BitVec.ofNat 8 (0x30 + y0)] →
      ∀ d m y : Nat, d = 10 * d1 + d0 → m = 10 * m1 + m0 → y = 10 * y1 + y0 →
        (1 ≤ d → d ≤ 28 → 1 ≤ m → m ≤ 12 → r = .ok d m y (Config.dateText d m y)) ∧
        (d = 0 ∨ 31 < d ∨ m = 0 ∨ 12 < m → r = .malformed)

/-- R223, U12: `directionIndicatorLabel` of a nibble's character answers four booleans, one per bit of the nibble,
under one bijection from meanings to bits; every other character completes as well. -/
def Obligations.DirectionLabelAnswersOneBooleanPerBit : Prop :=
  ∃ bit : DirectionMeaning → Fin 4, Function.Injective bit ∧
    ∀ s : State,
      (∀ n : Nibble, ∃ text, exec (.directionIndicatorLabel (hexChar n)) s = .next { s with
        reply := some (.direction (n.getLsbD (bit .fixValid)) (n.getLsbD (bit .northSouth))
          (n.getLsbD (bit .eastWest)) (n.getLsbD (bit .fixedValue)) text) }) ∧
      (∀ ch : Byte, ∃ a b c d text, exec (.directionIndicatorLabel ch) s = .next { s with
        reply := some (.direction a b c d text) })

/-- R224, U5: `deviceStatusLabels` answers one name per 1 bit of its operand. The names are free (log entry 11). -/
def Obligations.StatusLabelsNameEveryOneBit : Prop :=
  ∀ (s : State) (v : BitVec 16), ∃ flags : List (Nat × String),
    exec (.deviceStatusLabels v) s = .next { s with reply := some (.statusFlags flags) } ∧
    flags.map Prod.fst = (List.range 16).filter fun k => v.getLsbD k

/-! ## Whole machine -/

/-- R48: what reset leaves. The configuration's `BUF_MAX` of 4096 is the model's choice (log entry 1). -/
def Obligations.ResetValues : Prop :=
  State.reset.phase = .idle ∧ State.reset.cur = 0 ∧ State.reset.len = 0 ∧ State.reset.err = .noError ∧
  State.reset.errField = 0 ∧ State.reset.errPos = 0 ∧ State.reset.nrec = 0 ∧
  State.reset.msg.protocolHeader = 0 ∧ State.reset.msg.protocolVersion = 0 ∧
  State.reset.msg.imei = List.replicate 16 0 ∧ State.reset.msg.terminalId = List.replicate 10 0 ∧
  State.reset.msg.deviceType = 0 ∧ State.reset.msg.dataType = 0 ∧
  State.reset.msg.bindVehicleId = List.replicate 8 0 ∧ State.reset.msg.containsHealthcheck = false

/-- The invariant holds at reset. -/
def Obligations.ResetMeetsTheInvariant : Prop := State.reset.Inv

/-- Every step keeps the invariant: the buffer's canonical form and capacity, the cursor's bounds, the error registers,
the string lengths, the records' ranges, the results at `IDLE` and `FAIL`, and the record store's bound. -/
def Obligations.EveryStepKeepsTheInvariant : Prop :=
  ∀ s t : State, s.Inv → step s = .next t → t.Inv

/-- From a state that meets the invariant no step faults, and the decoder's turn always goes on. -/
def Obligations.NoFaultFromTheInvariant : Prop :=
  ∀ s : State, s.Inv → noFault (step s) ∧ (s.decoderMoves → goesOn (step s))

/-- R16, U15: the only refusals are a `LOAD` beyond the capacity outside `RUN`, a `READ` during `RUN`, and a `READ` of
a record that has no value. -/
def Obligations.OnlyTheSpecsOwnRefusals : Prop :=
  ∀ (s : State) (r : Refusal), step s = .refused r →
    (∃ bytes, s.hostIssues (.load bytes) ∧ s.phase ≠ .run ∧ s.cfg.bufMax < bytes.length) ∨
    (∃ name, s.hostIssues (.read name) ∧
      (s.phase = .run ∨ ∃ i f, name = .record i f ∧ (s.phase ≠ .done ∨ s.nrec ≤ i)))

/-- R8, R272: no step changes the configuration. -/
def Obligations.ConfigurationIsFixed : Prop :=
  ∀ s t : State, step s = .next t → t.cfg = s.cfg

/-- R8, R22, R23, R46: `CUR`, `LEN` and `ERRPOS` fit in `CW` bits and `NREC` is at most `REC_MAX`. -/
def Obligations.CursorRegistersFitTheirWidth : Prop :=
  ∀ s : State, s.Inv →
    s.cur < 2 ^ s.cfg.cursorWidth ∧ s.len < 2 ^ s.cfg.cursorWidth ∧ s.errPos < 2 ^ s.cfg.cursorWidth ∧
    s.nrec ≤ s.cfg.bufMax / (match s.cfg.imeiMode with | .hex8 => 62 | .ascii15 => 69)

/-- R107: every decode ends. A decoder left to itself is at `DONE` or `FAIL` after at most half the bytes that are
left, plus one, steps. -/
def Obligations.EveryDecodeEnds : Prop :=
  ∀ s : State, s.Inv → s.agenda = [] → s.phase = .run →
    ∃ k t, k ≤ (s.len - s.cur) / 2 + 1 ∧ runSteps k s = .next t ∧ t.ended

/-- R112: `LOAD`, `START` and the steps that follow compute `Decode` of the bytes loaded, from every state that is not
decoding. -/
def Obligations.LoadStartAndStepsComputeDecode : Prop :=
  ∀ (s : State) (bytes : List Byte),
    s.phase ≠ .run → bytes.length ≤ s.cfg.bufMax →
    s.agenda = [.host ⟨.load bytes, rfl⟩, .host ⟨.start, rfl⟩] →
    ∃ k t result, k ≤ bytes.length / 2 + 3 ∧ runSteps k s = .next t ∧ t.ended ∧
      t.observed = some result ∧ decodeBuffer s.cfg bytes = some result
end

