-- ==== Sys2Proof/Laws/Decode.lean ====
section
/-! SUPPORT. What the decoder's parts do: the scan for the closing marker, the cut into fields, and the
well-formedness of every decoded instruction. -/

namespace Sys2Proof

open Machine

/-- `DATA_LEN` is the sum of the sizes (R8). -/
theorem fieldSizes_sum (mode : ImeiMode) : (fieldSizes mode).sum = dataLen mode := by cases mode <;> rfl

theorem dataLen_ge (mode : ImeiMode) : 62 ≤ dataLen mode := by cases mode <;> decide

/-! ## The scan (R104) -/

theorem scanClose_body_noClose (bs : List Byte) : markerClose ∉ (scanClose bs).1 := by
  induction bs with
  | nil => simp [scanClose]
  | cons b bs ih =>
    unfold scanClose
    split
    · simp
    · next h => simpa [ih] using fun h' => h h'.symm

/-- What the scan answers: everything is body, or the body, the closing marker, and the rest. -/
theorem scanClose_eq (bs : List Byte) :
    ((scanClose bs).2 = none ∧ bs = (scanClose bs).1) ∨
    ∃ rest, (scanClose bs).2 = some rest ∧ bs = (scanClose bs).1 ++ markerClose :: rest := by
  induction bs with
  | nil => simp [scanClose]
  | cons b bs ih =>
    unfold scanClose
    split
    · next h => right; exact ⟨bs, rfl, by simp [h]⟩
    · rcases ih with ⟨h1, h2⟩ | ⟨rest, h1, h2⟩
      · left; exact ⟨h1, by simpa using h2⟩
      · right; exact ⟨rest, h1, by simpa using h2⟩

/-- A body without 0x29 is scanned whole. -/
theorem scanClose_append {body : List Byte} (h : markerClose ∉ body) (rest : List Byte) :
    scanClose (body ++ markerClose :: rest) = (body, some rest) := by
  induction body with
  | nil => simp [scanClose]
  | cons b body ih =>
    obtain ⟨hb, hbody⟩ := by simpa using h
    simp [scanClose, ih hbody, Ne.symm hb]

theorem scanClose_noClose {body : List Byte} (h : markerClose ∉ body) : scanClose body = (body, none) := by
  induction body with
  | nil => simp [scanClose]
  | cons b body ih =>
    obtain ⟨hb, hbody⟩ := by simpa using h
    simp [scanClose, ih hbody, Ne.symm hb]

/-! ## The cut into fields (R76, R154) -/

theorem cutFields_flatten (ns : List Nat) (bs : List Byte) :
    (cutFields ns bs).1.flatten ++ (cutFields ns bs).2.1 ++ (cutFields ns bs).2.2 = bs := by
  induction ns generalizing bs with
  | nil => simp [cutFields]
  | cons n ns ih =>
    unfold cutFields
    split
    · have h := ih (bs.drop n)
      simp only [List.flatten_cons, List.append_assoc] at h ⊢
      rw [h, List.take_append_drop]
    · simp

theorem cutFields_fit (ns : List Nat) (bs : List Byte) :
    fieldsFit ns (cutFields ns bs).1 (cutFields ns bs).2.1 = true := by
  induction ns generalizing bs with
  | nil => simp [cutFields, fieldsFit]
  | cons n ns ih =>
    unfold cutFields
    split
    · next h => simp [fieldsFit, ih, h]
    · next h => simpa [fieldsFit] using h

/-- Fields that fit the layout are cut out of their own bytes again. -/
theorem cutFields_of_fit {ns : List Nat} {fs : List (List Byte)} {cut : List Byte}
    (h : fieldsFit ns fs cut = true) : cutFields ns (fs.flatten ++ cut) = (fs, cut, []) := by
  induction ns generalizing fs with
  | nil =>
    cases fs with
    | nil => simp [fieldsFit] at h; simp [cutFields, h]
    | cons f fs => simp [fieldsFit] at h
  | cons n ns ih =>
    cases fs with
    | nil => simp [fieldsFit] at h; simp [cutFields, Nat.not_le.2 h]
    | cons f fs =>
      simp only [fieldsFit, Bool.and_eq_true, decide_eq_true_eq] at h
      obtain ⟨rfl, h⟩ := h
      simp [cutFields, ih h]

/-- The sizes of the fields that fit: those of the layout, one for one. -/
theorem fieldsFit_lengths {ns : List Nat} {fs : List (List Byte)} {cut : List Byte}
    (h : fieldsFit ns fs cut = true) : fs.map List.length = ns.take fs.length := by
  induction ns generalizing fs with
  | nil => cases fs <;> simp_all [fieldsFit]
  | cons n ns ih =>
    cases fs with
    | nil => simp
    | cons f fs =>
      simp only [fieldsFit, Bool.and_eq_true, decide_eq_true_eq] at h
      simp [h.1, ih h.2]

/-! ## Decoded instructions are well formed -/

theorem isHeartbeat_iff {bytes : List Byte} :
    isHeartbeat bytes = true ↔ 16 ≤ bytes.length ∧ (bytes.drop 13).take 3 = trailer := by
  simp only [isHeartbeat, Bool.and_eq_true, decide_eq_true_eq]

/-- The four cases of R102. -/
theorem classify_cases (m : Byte) (bs : List Byte) :
    (classify m bs = .hbeat ∧ m = markerParen ∧ isHeartbeat (m :: bs) = true) ∨
    (classify m bs = .cmd ∧ m = markerParen ∧ isHeartbeat (m :: bs) = false) ∨
    (classify m bs = .data ∧ m = markerData) ∨
    (classify m bs = .illegal ∧ m ≠ markerParen ∧ m ≠ markerData) := by
  unfold classify
  by_cases h1 : m = markerParen
  · cases isHeartbeat (m :: bs) <;> simp [← h1]
  · by_cases h2 : m = markerData
    · simp [h2, show markerData ≠ markerParen by decide]
    · simp [h1, h2]

/-- Everything the decoder can answer with. -/
theorem decode_cases {mode : ImeiMode} {bytes rest : List Byte} {i : Instr}
    (h : decode mode bytes = .ok (i, rest)) :
    ∃ m bs, bytes = m :: bs ∧
      ((m = markerParen ∧ isHeartbeat (m :: bs) = true ∧
          i = .hbeat (bs.take 10) ((bs.drop 10).take 2) ∧ rest = bs.drop 15) ∨
       (m = markerParen ∧ isHeartbeat (m :: bs) = false ∧
          i = .cmd (scanClose bs).1 (scanClose bs).2.isSome ∧ rest = (scanClose bs).2.getD []) ∨
       (m = markerData ∧ i = .data (cutFields (fieldSizes mode) (m :: bs)).1
          (cutFields (fieldSizes mode) (m :: bs)).2.1 ∧ rest = (cutFields (fieldSizes mode) (m :: bs)).2.2) ∨
       (m ≠ markerParen ∧ m ≠ markerData ∧ i = .illegal m ∧ rest = bs)) := by
  cases bytes with
  | nil => simp [decode] at h
  | cons m bs =>
    refine ⟨m, bs, rfl, ?_⟩
    rcases classify_cases m bs with ⟨hc, hm⟩ | ⟨hc, hm⟩ | ⟨hc, hm⟩ | ⟨hc, hm⟩ <;>
      simp only [decode, hc, Except.ok.injEq, Prod.mk.injEq] at h
    · exact .inl ⟨hm.1, hm.2, h.1.symm, h.2.symm⟩
    · exact .inr (.inl ⟨hm.1, hm.2, h.1.symm, h.2.symm⟩)
    · exact .inr (.inr (.inl ⟨hm, h.1.symm, h.2.symm⟩))
    · exact .inr (.inr (.inr ⟨hm.1, hm.2, h.1.symm, h.2.symm⟩))

theorem decode_wellFormed {mode : ImeiMode} {bytes rest : List Byte} {i : Instr}
    (h : decode mode bytes = .ok (i, rest)) : i.wellFormed mode = true := by
  obtain ⟨m, bs, rfl, ⟨-, hh, rfl, -⟩ | ⟨hm, hh, rfl, -⟩ | ⟨hm, rfl, -⟩ | ⟨h1, h2, rfl, -⟩⟩ := decode_cases h
  · have := (isHeartbeat_iff.1 hh).1
    simp only [List.length_cons] at this
    simp only [Instr.wellFormed, List.length_take, List.length_drop, Bool.and_eq_true, decide_eq_true_eq]
    omega
  · simp only [Instr.wellFormed, commandFits, Bool.and_eq_true, Bool.not_eq_true', List.contains_eq_mem,
      decide_eq_false_iff_not]
    refine ⟨scanClose_body_noClose bs, ?_⟩
    rcases scanClose_eq bs with ⟨h1, -⟩ | ⟨r, -, h2⟩
    · simp [h1]
    · -- a 16-byte frame that ends in the trailer would have been a heartbeat
      by_contra hbad
      simp only [Bool.not_eq_false, Bool.and_eq_true, decide_eq_true_eq] at hbad
      obtain ⟨⟨-, hl⟩, hjt⟩ := hbad
      have hyes : isHeartbeat (m :: bs) = true := by
        rw [isHeartbeat_iff, h2]
        refine ⟨by simp [hl]; omega, ?_⟩
        have hsplit : (scanClose bs).1 = (scanClose bs).1.take 12 ++ [0x4A, 0x54] := by
          rw [← hjt, List.take_append_drop]
        have h12 : ((scanClose bs).1.take 12).length = 12 := by simp [hl]
        rw [hsplit, List.drop_succ_cons, List.append_assoc, List.drop_left' h12]
        rfl
      simp [hyes] at hh
  · simp only [Instr.wellFormed, Bool.and_eq_true, decide_eq_true_eq]
    exact ⟨by cases mode <;> simp [fieldSizes, cutFields, hm], cutFields_fit _ _⟩
  · simp [Instr.wellFormed, h1, h2]

end Sys2Proof
end

