-- ==== Sys2Proof/Laws/Fields.lean ====
section
/-! SUPPORT. What the field extractor can answer: digit strings, characters, and the whole of a data frame. -/

namespace Sys2Proof.Machine

/-! ## Digit strings -/

theorem nibbles_length (bs : List Byte) : (nibbles bs).length = 2 * bs.length := by
  induction bs with
  | nil => rfl
  | cons b bs ih => simp [nibbles, ih]; omega

theorem nibbles_append (as bs : List Byte) : nibbles (as ++ bs) = nibbles as ++ nibbles bs := by
  induction as with
  | nil => rfl
  | cons a as ih => simp [nibbles, ih]

@[simp] theorem hexStr_length (bs : List Byte) : (hexStr bs).length = 2 * bs.length := by
  simp [hexStr, nibbles_length]

theorem decFold_lt (ds : List Nibble) (acc : Nat) (h : ∀ d ∈ ds, d.toNat ≤ 9) :
    ds.foldl (fun acc d => 10 * acc + d.toNat) acc < (acc + 1) * 10 ^ ds.length := by
  induction ds generalizing acc with
  | nil => simp
  | cons d ds ih =>
    have hd := h d (by simp)
    have := ih (10 * acc + d.toNat) fun e he => h e (by simp [he])
    simp only [List.foldl_cons, List.length_cons]
    refine Nat.lt_of_lt_of_le this ?_
    rw [pow_succ, Nat.mul_comm (10 ^ ds.length) 10, ← Nat.mul_assoc]
    exact Nat.mul_le_mul_right _ (by omega)

/-- `DEC` answers exactly when every nibble is a decimal digit, with a number below 10^n (R17 a). -/
theorem dec_eq_some {ds : List Nibble} {v : Nat} (h : dec ds = some v) :
    (∀ d ∈ ds, d.toNat ≤ 9) ∧ v < 10 ^ ds.length := by
  unfold dec at h
  split at h
  · next hall =>
    have hd : ∀ d ∈ ds, d.toNat ≤ 9 := by simpa using hall
    exact ⟨hd, by simpa [← Option.some.inj h] using decFold_lt ds 0 hd⟩
  · simp at h

theorem dec_eq_none {ds : List Nibble} : dec ds = none ↔ ∃ d ∈ ds, 9 < d.toNat := by
  simp [dec]

/-- `utimeMillis` of six bytes is at most 999_999_999_999 under either source (R32). -/
theorem utimeMillis_lt {src : UtimeSrc} {bs : List Byte} {ms : Nat} (hl : bs.length = 6)
    (h : utimeMillis src bs = some ms) : ms < 1000000000000 := by
  cases src with
  | dateTime12 =>
    have := (dec_eq_some h).2
    simpa [nibbles_length, hl] using this
  | uninterpreted =>
    simp only [utimeMillis, Option.some.injEq] at h
    rw [← h]
    exact (Config.freeUtime bs).isLt

theorem be_append (bs : List Byte) (b : Byte) : be (bs ++ [b]) = 256 * be bs + b.toNat := by
  simp [be]

/-! ## Range checks -/

/-- Every number of at most 9 digits passes both coordinate checks (R193). -/
theorem chkLat_of_lt {v : Nat} (h : v < 100000000) : chkLat (BitVec.ofNat 32 v) = true := by
  have : (BitVec.ofNat 32 v).toInt = v := by
    rw [BitVec.toInt_eq_toNat_cond]
    simp only [BitVec.toNat_ofNat]
    rw [Nat.mod_eq_of_lt (by omega), if_pos (by omega)]
  simp only [chkLat, this, latBound, Bool.and_eq_true, decide_eq_true_eq]
  omega

theorem chkLng_of_lt {v : Nat} (h : v < 1000000000) : chkLng (BitVec.ofNat 32 v) = true := by
  have : (BitVec.ofNat 32 v).toInt = v := by
    rw [BitVec.toInt_eq_toNat_cond]
    simp only [BitVec.toNat_ofNat]
    rw [Nat.mod_eq_of_lt (by omega), if_pos (by omega)]
  simp only [chkLng, this, lngBound, Bool.and_eq_true, decide_eq_true_eq]
  omega

theorem chkAngle_iff (a : Byte) : chkAngle a = true ↔ a.toNat ≤ 180 := by
  simp only [chkAngle, angleMax, decide_eq_true_eq]
  omega

theorem hexChar_isHexChar (d : Nibble) : 0x30 ≤ (hexChar d).toNat ∧ (hexChar d).toNat ≤ 0x39 ∨
    0x41 ≤ (hexChar d).toNat ∧ (hexChar d).toNat ≤ 0x46 := by
  revert d; decide

/-! ## A whole data frame -/

/-- The imei register's value (R149, R156). -/
def imeiValue (mode : ImeiMode) (bs : List Byte) : Chars :=
  match mode with
  | .hex8 => hexStr bs
  | .ascii15 => bs

theorem stageImei_eq (mode : ImeiMode) (bs : List Byte) (st : Staged) :
    stageImei mode bs st = .ok { st with imei := imeiValue mode bs } := by
  cases mode <;> rfl

/-- What is staged when all 28 fields have passed. -/
def wholeStaged (mode : ImeiMode) (ms latv lngv : Nat)
    (f1 f2 f3 f4 f6 f7 f9 f10 f11 f12 f13 f14 f15 f16 f17 f18 f19 f20 f21 f22 f23 f24 f26 f27 f28 : List Byte) :
    Staged where
  protocolHeader := u8 f1
  protocolVersion := u8 f3
  imei := imeiValue mode f24
  terminalId := hexStr f2
  deviceType := highNibble (u8 f4)
  dataType := lowNibble (u8 f4)
  bindVehicleId := hexStr f14
  dateTimeBytes := f6 ++ f7
  record :=
    { utimeMillis := BitVec.ofNat 40 ms, utimeSeconds := BitVec.ofNat 30 (ms / 1000), date := hexStr f6
      time := hexStr f7, latRaw := BitVec.ofNat 32 latv, lngRaw := BitVec.ofNat 32 lngv
      directionIndicator := hexChar (((nibbles f9).drop 9).headD 0), speed := u8 f10, angle := u8 f11
      distanceKm := BitVec.ofNat 32 (be f12), visibleSatellites := u8 f13
      cellIdPositionCode := BitVec.ofNat 32 (be f18), mcc := BitVec.ofNat 16 (be f26), mncHighByte := u8 f22
      mncLowByte := u8 f27, gsmSignalQuality := u8 f19, fenceAlarmId := u8 f20, expandedDeviceStatus := u8 f21
      expandedDeviceStatus2 := u8 f23, batteryLevelPercent := u8 f17, serialNo := u8 f28, highEvents := u8 f15
      lowEvents := u8 f16 }

/-- Everything `DataFrame` can answer for 28 fields: the four checks in layout order, then the staged values. -/
theorem dataFrame_whole (cfg : Config)
    (f1 f2 f3 f4 f5 f6 f7 f8 f9 f10 f11 f12 f13 f14 f15 f16 f17 f18 f19 f20 f21 f22 f23 f24 f25 f26 f27 f28 :
      List Byte) :
    dataFrame cfg [f1, f2, f3, f4, f5, f6, f7, f8, f9, f10, f11, f12, f13, f14, f15, f16, f17, f18, f19, f20, f21, f22,
        f23, f24, f25, f26, f27, f28] =
      match utimeMillis cfg.utimeSrc (f6 ++ f7) with
      | none => .error (.badDigit, 29)
      | some ms =>
        match dec (nibbles f8) with
        | none => .error (.badDigit, 8)
        | some latv =>
          if chkLat (BitVec.ofNat 32 latv) then
            match dec ((nibbles f9).take 9) with
            | none => .error (.badDigit, 9)
            | some lngv =>
              if chkLng (BitVec.ofNat 32 lngv) then
                if chkAngle (u8 f11) then
                  .ok (wholeStaged cfg.imeiMode ms latv lngv f1 f2 f3 f4 f6 f7 f9 f10 f11 f12 f13 f14 f15 f16 f17 f18
                    f19 f20 f21 f22 f23 f24 f26 f27 f28)
                else .error (.fieldOutOfRange, 11)
              else .error (.fieldOutOfRange, 9)
          else .error (.fieldOutOfRange, 8) := by
  unfold dataFrame fieldRules
  simp only [runFields, stageProtocolHeader, stageTerminalId, stageProtocolVersion, stageTypes, stageRecordLength,
    stageDate, stageTime]
  cases hms : utimeMillis cfg.utimeSrc (f6 ++ f7) with
  | none => rfl
  | some ms =>
    simp only [stageLatitude]
    cases hlat : dec (nibbles f8) with
    | none => rfl
    | some latv =>
      simp only
      by_cases hc : chkLat (BitVec.ofNat 32 latv)
      · simp only [hc, if_true, stageLongitude]
        cases hlng : dec ((nibbles f9).take 9) with
        | none => rfl
        | some lngv =>
          simp only
          by_cases hd : chkLng (BitVec.ofNat 32 lngv)
          · simp only [hd, if_true, stageSpeed, stageAngle]
            by_cases ha : chkAngle (u8 f11)
            · simp only [ha, if_true, stageMileage, stageVisibleSatellites, stageBindVehicleId, stageHighEventByte,
                stageLowEventByte, stageBatteryLevel, stageCellIdPositionCode, stageGsmSignalQuality,
                stageFenceAlarmId, stageExpandedDeviceStatus, stageMncHighByte, stageExpandedDeviceStatus2,
                stageImei_eq, stageReservedCellId, stageMcc, stageMncLowByte, stageSerialNo]
              rfl
            · simp only [ha]; rfl
          · simp only [hd]; rfl
      · simp only [hc]; rfl

/-- A data frame passes only with all its fields. -/
theorem runFields_ok_length {k : Nat} {rules : List (List Byte → Staged → FieldResult)} {fields : List (List Byte)}
    {st st' : Staged} (h : runFields k rules fields st = .ok st') : rules.length ≤ fields.length := by
  induction rules generalizing k fields st with
  | nil => simp
  | cons r rules ih =>
    cases fields with
    | nil => simp [runFields] at h
    | cons f fs =>
      simp only [runFields] at h
      split at h
      · simp at h
      · simpa using ih h

/-- Fields that fit the layout are at most 28, and 28 of them have the layout's sizes. -/
theorem fit_whole {mode : ImeiMode} {fields : List (List Byte)} {cut : List Byte}
    (h : fieldsFit (fieldSizes mode) fields cut = true) (hl : 28 ≤ fields.length) :
    fields.map List.length = fieldSizes mode := by
  have := fieldsFit_lengths h
  rw [this, List.take_of_length_le]
  cases mode <;> simpa [fieldSizes] using hl

/-! ## The cut into fields, by offsets -/

/-- The running sums of sizes, from an offset. -/
def offsetsFrom : Nat → List Nat → List Nat
  | _, [] => []
  | o, n :: ns => o :: offsetsFrom (o + n) ns

theorem fieldOffsets_eq (mode : ImeiMode) : fieldOffsets mode = offsetsFrom 0 (fieldSizes mode) := by
  cases mode <;> decide

/-- The fields that fit are the slices at the offsets, up to the first that reaches past the end. -/
theorem cutFields_slices (buf : List Byte) (c : Nat) {ns : List Nat} (o : Nat) (h : ∀ n ∈ ns, 1 ≤ n) :
    (cutFields ns (buf.drop (c + o))).1 =
      (((offsetsFrom o ns).zip ns).takeWhile fun p => decide (p.1 + p.2 ≤ buf.length - c)).map
        fun p => slice buf (c + p.1) p.2 := by
  induction ns generalizing o with
  | nil => rfl
  | cons n ns ih =>
    have hn := h n (by simp)
    have ih := ih (o + n) fun m hm => h m (by simp [hm])
    simp only [offsetsFrom, List.zip_cons_cons, cutFields, List.length_drop]
    by_cases hfit : o + n ≤ buf.length - c
    · rw [if_pos (by omega), List.takeWhile_cons_of_pos (by simpa using hfit)]
      simp only [List.map_cons, slice, List.drop_drop]
      rw [Nat.add_assoc, ih]
      rfl
    · rw [if_neg (by omega), List.takeWhile_cons_of_neg (by simpa using hfit)]
      rfl

/-- Bytes enough for the whole layout leave nothing cut, and the rest begins after the layout. -/
theorem cutFields_rest {ns : List Nat} {bs : List Byte} (h : ns.sum ≤ bs.length) :
    (cutFields ns bs).2 = ([], bs.drop ns.sum) := by
  induction ns generalizing bs with
  | nil => rfl
  | cons n ns ih =>
    simp only [List.sum_cons] at h
    have := ih (bs := bs.drop n) (by simp; omega)
    simp only [cutFields, if_pos (show n ≤ bs.length by omega), this, List.drop_drop, List.sum_cons]

theorem fieldSizes_pos (mode : ImeiMode) : ∀ n ∈ fieldSizes mode, 1 ≤ n := by
  cases mode <;> decide

/-! ## What a data frame answers -/

theorem runFields_error_kind {rules : List (List Byte → Staged → FieldResult)}
    (hr : ∀ r ∈ rules, ∀ b st e, r b st = .error e → e.1 = .badDigit ∨ e.1 = .fieldOutOfRange) {k : Nat}
    {fields : List (List Byte)} {st : Staged} {e : Failure} (h : runFields k rules fields st = .error e) :
    e.1 = .badDigit ∨ e.1 = .fieldOutOfRange ∨ e.1 = .incompleteField := by
  induction rules generalizing k fields st with
  | nil => simp [runFields] at h
  | cons r rs ih =>
    cases fields with
    | nil => simp [runFields] at h; subst h; simp
    | cons f fs =>
      simp only [runFields] at h
      split at h
      · next e' he =>
        simp only [Except.error.injEq] at h
        subst h
        exact (hr r (by simp) _ _ _ he).imp_right .inl
      · exact ih (fun r hr' => hr r (by simp [hr'])) h

/-- The kinds a `DATA` step can fail with (R240). -/
theorem dataFrame_error_kind {cfg : Config} {fields : List (List Byte)} {e : Failure}
    (h : dataFrame cfg fields = .error e) :
    e.1 = .badDigit ∨ e.1 = .fieldOutOfRange ∨ e.1 = .incompleteField := by
  refine runFields_error_kind ?_ h
  intro r hr b st e he
  simp only [fieldRules, List.mem_cons, List.not_mem_nil, or_false] at hr
  rcases hr with rfl | rfl | rfl | rfl | rfl | rfl | rfl | rfl | rfl | rfl | rfl | rfl | rfl | rfl | rfl | rfl | rfl |
      rfl | rfl | rfl | rfl | rfl | rfl | rfl | rfl | rfl | rfl | rfl <;>
    try simp only [stageProtocolHeader, stageTerminalId, stageProtocolVersion, stageTypes, stageRecordLength, stageDate,
      stageTime, stageMileage, stageVisibleSatellites, stageBindVehicleId, stageHighEventByte, stageLowEventByte,
      stageBatteryLevel, stageCellIdPositionCode, stageGsmSignalQuality, stageFenceAlarmId, stageExpandedDeviceStatus,
      stageMncHighByte, stageExpandedDeviceStatus2, stageImei_eq, stageReservedCellId, stageMcc, stageMncLowByte,
      stageSerialNo, stageSpeed, reduceCtorEq] at he
  · split at he <;> simp at he
    subst he; simp
  · unfold stageLatitude at he
    split at he
    · simp at he; subst he; simp
    · split at he <;> simp at he
      subst he; simp
  · unfold stageLongitude at he
    split at he
    · simp at he; subst he; simp
    · split at he <;> simp at he
      subst he; simp
  · unfold stageAngle at he
    split at he <;> simp at he
    subst he; simp

/-- What holds of the staged values of a well-formed frame that passes (R31 to R45), and its length. -/
theorem dataFrame_ok {cfg : Config} {fields : List (List Byte)} {cut : List Byte} {st : Staged}
    (hwf : (Instr.data fields cut).wellFormed cfg.imeiMode = true) (h : dataFrame cfg fields = .ok st) :
    st.record.legal ∧ st.protocolHeader = markerData ∧ st.imei.length = imeiChars cfg.imeiMode ∧
      st.terminalId.length = 10 ∧ st.bindVehicleId.length = 8 ∧
      fields.flatten.length = dataLen cfg.imeiMode := by
  simp only [Instr.wellFormed, Bool.and_eq_true, decide_eq_true_eq] at hwf
  have hs := fit_whole hwf.2 (by simpa [fieldRules] using runFields_ok_length h)
  have hlen : fields.length = 28 := by
    have := congrArg List.length hs
    cases hm : cfg.imeiMode <;> simpa [fieldSizes, hm] using this
  have hflat : fields.flatten.length = dataLen cfg.imeiMode := by
    rw [List.length_flatten, hs, fieldSizes_sum]
  match fields, hlen with
  | [f1, f2, f3, f4, f5, f6, f7, f8, f9, f10, f11, f12, f13, f14, f15, f16, f17, f18, f19, f20, f21, f22,
        f23, f24, f25, f26, f27, f28], _ =>
    simp only [fieldSizes, List.map_cons, List.map_nil, List.cons.injEq, and_true] at hs
    obtain ⟨-, h2, -, -, -, h6, h7, h8, h9, -, -, -, -, h14, -, -, -, -, -, -, -, -, -, h24, -⟩ := hs
    rw [dataFrame_whole] at h
    split at h
    · simp at h
    next ms hms =>
    split at h
    · simp at h
    next latv hlat =>
    split at h
    case isFalse => simp at h
    split at h
    · simp at h
    next lngv hlng =>
    split at h
    case isFalse => simp at h
    split at h
    case isFalse => simp at h
    next ha =>
    simp only [Except.ok.injEq] at h
    subst h
    have hms' := utimeMillis_lt (by simp [h6, h7]) hms
    have hlat' := (dec_eq_some hlat).2
    have hlng' := (dec_eq_some hlng).2
    simp only [nibbles_length, h8, List.length_take, h9] at hlat' hlng'
    norm_num at hlat' hlng'
    refine ⟨⟨by simp [wholeStaged, h6], by simp [wholeStaged, h7], ?_, ?_, ?_, ?_, hexChar_isHexChar _,
      (chkAngle_iff _).1 ha⟩, ?_, ?_, ?_, ?_, hflat⟩
    · simp [wholeStaged]; omega
    · simp [wholeStaged]; omega
    · simp [wholeStaged]; omega
    · simp [wholeStaged]; omega
    · have : f1 = [markerData] := by simpa using hwf.1
      simp [wholeStaged, this, u8]
    · cases hm : cfg.imeiMode <;> simp_all [wholeStaged, imeiValue, imeiBytes, imeiChars]
    · simp [wholeStaged, h2]
    · simp [wholeStaged, h14]

end Sys2Proof.Machine
end

