-- ==== Sys2Proof/Laws/Memory.lean ====
section
/-! SUPPORT. The laws of the input buffer: read after write, and that every operation keeps the canonical form. -/

namespace Sys2Proof.Machine

theorem Memory.read_write_same (m : Memory) (a : Nat) (b : Byte) : Memory.read (Memory.write m a b) a = some b := by
  induction m with
  | nil => simp [Memory.write, Memory.read]
  | cons c m ih =>
    unfold Memory.write
    split
    · simp [Memory.read]
    · split
      · simp [Memory.read]
      · have : c.1 ≠ a := by omega
        simp [Memory.read, this, ih]

theorem Memory.read_write_other (m : Memory) {a a' : Nat} (b : Byte) (h : a' ≠ a) :
    Memory.read (Memory.write m a b) a' = Memory.read m a' := by
  induction m with
  | nil => simp [Memory.write, Memory.read, h.symm]
  | cons c m ih =>
    unfold Memory.write
    split
    · simp [Memory.read, h.symm]
    · split
      · have : c.1 ≠ a' := by omega
        simp [Memory.read, h.symm, this]
      · simp [Memory.read, ih]

/-- The addresses a write leaves listed. -/
theorem Memory.mem_write {m : Memory} {a : Nat} {b : Byte} {c : Host.Cell} (h : c ∈ Memory.write m a b) :
    c = (a, b) ∨ c ∈ m := by
  induction m with
  | nil => simpa [Memory.write] using h
  | cons d m ih =>
    unfold Memory.write at h
    split at h
    · simpa using h
    · split at h
      · rcases List.mem_cons.1 h with h | h
        · exact .inl h
        · exact .inr (List.mem_cons_of_mem _ h)
      · rcases List.mem_cons.1 h with h | h
        · exact .inr (by simp [h])
        · exact (ih h).imp_right (List.mem_cons_of_mem _)

/-- A write keeps the canonical form. -/
theorem Memory.wf_write {m : Memory} (hm : m.wf) (a : Nat) (b : Byte) : (Memory.write m a b).wf := by
  induction m with
  | nil => simp [Memory.wf, Memory.write]
  | cons c m ih =>
    have hc := List.pairwise_cons.1 hm
    unfold Memory.write
    split
    · next h =>
      refine List.pairwise_cons.2 ⟨fun d hd => ?_, hm⟩
      rcases List.mem_cons.1 hd with rfl | hd
      · exact h
      · exact Nat.lt_trans h (hc.1 d hd)
    · next h =>
      split
      · next h' => subst h'; exact List.pairwise_cons.2 ⟨fun d hd => hc.1 d hd, hc.2⟩
      · next h' =>
        refine List.pairwise_cons.2 ⟨fun d hd => ?_, ih hc.2⟩
        rcases Memory.mem_write hd with rfl | hd
        · show c.1 < a; omega
        · exact hc.1 d hd

theorem Memory.wf_writeBytes {m : Memory} (hm : m.wf) (a : Nat) (bs : List Byte) :
    (Memory.writeBytes m a bs).wf := by
  induction bs generalizing m a with
  | nil => exact hm
  | cons b bs ih => exact ih (Memory.wf_write hm a b) (a + 1)

theorem Memory.reset_wf : Memory.wf State.reset.mem := List.Pairwise.nil

theorem Memory.mem_writeBytes {m : Memory} {a : Nat} {bs : List Byte} {c : Host.Cell}
    (h : c ∈ Memory.writeBytes m a bs) : (a ≤ c.1 ∧ c.1 < a + bs.length) ∨ c ∈ m := by
  induction bs generalizing m a with
  | nil => exact .inr h
  | cons b bs ih =>
    rcases ih h with h | h
    · left; simp; omega
    · rcases Memory.mem_write h with rfl | h
      · left; simp
      · exact .inr h

/-- A byte sequence changes nothing outside itself. -/
theorem Memory.read_writeBytes_outside (m : Memory) {a a' : Nat} (bs : List Byte)
    (h : a' < a ∨ a + bs.length ≤ a') : Memory.read (Memory.writeBytes m a bs) a' = Memory.read m a' := by
  induction bs generalizing m a with
  | nil => rfl
  | cons b bs ih =>
    simp only [List.length_cons] at h
    unfold Memory.writeBytes
    rw [ih _ (by omega), Memory.read_write_other _ _ (by omega)]

/-- A byte sequence reads back. -/
theorem Memory.read_writeBytes_inside (m : Memory) (a : Nat) (bs : List Byte) {i : Nat} (h : i < bs.length) :
    Memory.read (Memory.writeBytes m a bs) (a + i) = some bs[i] := by
  induction bs generalizing m a i with
  | nil => simp at h
  | cons b bs ih =>
    unfold Memory.writeBytes
    cases i with
    | zero =>
      rw [Memory.read_writeBytes_outside _ _ (by omega)]
      simpa using Memory.read_write_same m a b
    | succ i =>
      have := ih (Memory.write m a b) (a + 1) (i := i) (by simpa using h)
      rw [show a + (i + 1) = a + 1 + i by omega, this]; rfl

/-- Everything `MemRead` can answer with bytes. -/
theorem Memory.readBytes_eq_ok {m : Memory} {a n : Nat} {bs : List Byte} :
    Memory.readBytes m a n = .ok bs ↔ bs.length = n ∧ ∀ i (h : i < bs.length), Memory.read m (a + i) = some bs[i] := by
  induction n generalizing a bs with
  | zero =>
    constructor
    · intro h; simp only [Memory.readBytes, Except.ok.injEq] at h; subst h; simp
    · rintro ⟨h, -⟩; simp [Memory.readBytes, List.length_eq_zero_iff.1 h]
  | succ n ih =>
    unfold Memory.readBytes
    constructor
    · intro h
      split at h
      · simp at h
      · next b hb =>
        split at h
        · simp at h
        · next cs hcs =>
          simp only [Except.ok.injEq] at h
          subst h
          obtain ⟨hl, hr⟩ := ih.1 hcs
          refine ⟨by simp [hl], fun i hi => ?_⟩
          cases i with
          | zero => simpa using hb
          | succ i =>
            have := hr i (by simpa using hi)
            rw [show a + (i + 1) = a + 1 + i by omega]; simpa using this
    · rintro ⟨hl, hr⟩
      cases bs with
      | nil => simp at hl
      | cons b bs =>
        have h0 := hr 0 (by simp)
        have hrest : Memory.readBytes m (a + 1) n = .ok bs :=
          ih.2 ⟨by simpa using hl, fun i hi => by
            have := hr (i + 1) (by simpa using hi)
            rw [show a + 1 + i = a + (i + 1) by omega]; simpa using this⟩
        simp only [Nat.add_zero, List.getElem_cons_zero] at h0
        simp [h0, hrest]

/-- `MemRead` succeeds where every address holds a value. -/
theorem Memory.readBytes_of_readable {m : Memory} {a n : Nat} (h : ∀ i < n, (Memory.read m (a + i)).isSome = true) :
    ∃ bs, Memory.readBytes m a n = .ok bs := by
  induction n generalizing a with
  | zero => exact ⟨[], rfl⟩
  | succ n ih =>
    obtain ⟨b, hb⟩ := Option.isSome_iff_exists.1 (h 0 (by omega))
    obtain ⟨bs, hbs⟩ := ih (a := a + 1) fun i hi => by
      have := h (i + 1) (by omega)
      rwa [show a + 1 + i = a + (i + 1) by omega]
    exact ⟨b :: bs, by simp only [Nat.add_zero] at hb; simp [Memory.readBytes, hb, hbs]⟩

end Sys2Proof.Machine
end

