-- ==== Sys2Proof/Laws/PerInstr.lean ====
section
/-! SUPPORT. A statement for every instruction, one lemma per constructor: the size of its encoding. -/

namespace Sys2Proof.Laws.EncodedSize

open Machine

/-- A well-formed instruction with an encoding is at least one byte long and at most `DATA_LEN`, or it is a command
frame; the rows without a bit pattern have no encoding (R70, R86). -/
def Statement (i : Instr) : Prop :=
  ∀ mode, i.wellFormed mode = true →
    match encode i with
    | none => i.isHostOp = true
    | some bs => i.isHostOp = false ∧
        (bs.length = hbLen ∨ bs.length ≤ dataLen mode ∨ bs.head? = some markerParen) ∧ 1 ≤ bs.length

theorem hbeat (tid unnamed : List Byte) : Statement (.hbeat tid unnamed) := by
  intro mode h
  simp only [Instr.wellFormed, Bool.and_eq_true, decide_eq_true_eq] at h
  simp [encode, Instr.isHostOp, hbLen, trailer, h.1, h.2]

theorem cmd (body : List Byte) (closed : Bool) : Statement (.cmd body closed) := by
  intro mode _
  simp [encode, Instr.isHostOp]

theorem fit_length {ns : List Nat} {fs : List (List Byte)} {cut : List Byte} (h : fieldsFit ns fs cut = true) :
    (fs.flatten ++ cut).length ≤ ns.sum := by
  induction ns generalizing fs with
  | nil => cases fs <;> simp_all [fieldsFit]
  | cons n ns ih =>
    cases fs with
    | nil => simp [fieldsFit] at h ⊢; omega
    | cons f fs =>
      simp only [fieldsFit, Bool.and_eq_true, decide_eq_true_eq] at h
      have := ih h.2
      simp only [List.flatten_cons, List.append_assoc, List.length_append, List.sum_cons] at this ⊢
      omega

theorem data (fields : List (List Byte)) (cut : List Byte) : Statement (.data fields cut) := by
  intro mode h
  simp only [Instr.wellFormed, Bool.and_eq_true, decide_eq_true_eq] at h
  refine ⟨rfl, .inr (.inl (fieldSizes_sum mode ▸ fit_length h.2)), ?_⟩
  obtain ⟨fs, rfl⟩ := List.head?_eq_some_iff.1 h.1
  simp

theorem illegal (m : Byte) : Statement (.illegal m) := by
  intro mode _
  cases mode <;> simp [encode, Instr.isHostOp, dataLen]

theorem reset : Statement .reset := fun _ _ => rfl
theorem load (bytes : List Byte) : Statement (.load bytes) := fun _ _ => rfl
theorem start : Statement .start := fun _ _ => rfl
theorem poll : Statement .poll := fun _ _ => rfl
theorem read (n : ReadName) : Statement (.read n) := fun _ _ => rfl
theorem evtHas (s : Byte) (f : EventFlag) : Statement (.evtHas s f) := fun _ _ => rfl
theorem evtAdd (s : Byte) (f : EventFlag) : Statement (.evtAdd s f) := fun _ _ => rfl
theorem evtRender (t : EventTable) (s : Byte) : Statement (.evtRender t s) := fun _ _ => rfl
theorem chkLat (v : BitVec 32) : Statement (.chkLat v) := fun _ _ => rfl
theorem chkLng (v : BitVec 32) : Statement (.chkLng v) := fun _ _ => rfl
theorem chkAngle (a : Byte) : Statement (.chkAngle a) := fun _ _ => rfl
theorem split (t : HexText) : Statement (.split t) := fun _ _ => rfl
theorem protocolVersionLabel (v : Byte) : Statement (.protocolVersionLabel v) := fun _ _ => rfl
theorem deviceTypeLabel (t : Nibble) : Statement (.deviceTypeLabel t) := fun _ _ => rfl
theorem dataTypeLabel (t : Nibble) : Statement (.dataTypeLabel t) := fun _ _ => rfl
theorem coordinateDegrees (raw : Nat) : Statement (.coordinateDegrees raw) := fun _ _ => rfl
theorem dateLabel (d : Chars) : Statement (.dateLabel d) := fun _ _ => rfl
theorem speedKmh (raw : Byte) : Statement (.speedKmh raw) := fun _ _ => rfl
theorem angleDegrees (raw : Byte) : Statement (.angleDegrees raw) := fun _ _ => rfl
theorem gsmSignalQualityLabel (v : Byte) : Statement (.gsmSignalQualityLabel v) := fun _ _ => rfl
theorem directionIndicatorLabel (ch : Byte) : Statement (.directionIndicatorLabel ch) := fun _ _ => rfl
theorem deviceStatusLabels (v : BitVec 16) : Statement (.deviceStatusLabels v) := fun _ _ => rfl

end Sys2Proof.Laws.EncodedSize
end

