-- ==== Sys2Proof/Laws/State.lean ====
section
/-! SUPPORT. One lemma per field per update of State, each true by `rfl`. -/

namespace Sys2Proof.Machine

variable (s : State)

/-! ### `State.popTurn`: The next turn is taken off the agenda. -/

@[simp] theorem State.popTurn_cfg : (s.popTurn).cfg = s.cfg := rfl
@[simp] theorem State.popTurn_agenda : (s.popTurn).agenda = s.agenda.tail := rfl
@[simp] theorem State.popTurn_reply : (s.popTurn).reply = s.reply := rfl
@[simp] theorem State.popTurn_mem : (s.popTurn).mem = s.mem := rfl
@[simp] theorem State.popTurn_len : (s.popTurn).len = s.len := rfl
@[simp] theorem State.popTurn_cur : (s.popTurn).cur = s.cur := rfl
@[simp] theorem State.popTurn_phase : (s.popTurn).phase = s.phase := rfl
@[simp] theorem State.popTurn_err : (s.popTurn).err = s.err := rfl
@[simp] theorem State.popTurn_errField : (s.popTurn).errField = s.errField := rfl
@[simp] theorem State.popTurn_errPos : (s.popTurn).errPos = s.errPos := rfl
@[simp] theorem State.popTurn_msg : (s.popTurn).msg = s.msg := rfl
@[simp] theorem State.popTurn_recs : (s.popTurn).recs = s.recs := rfl

/-! ### `State.answer`: An answer for the host. -/

@[simp] theorem State.answer_cfg (r : Reply) : (s.answer r).cfg = s.cfg := rfl
@[simp] theorem State.answer_agenda (r : Reply) : (s.answer r).agenda = s.agenda := rfl
@[simp] theorem State.answer_reply (r : Reply) : (s.answer r).reply = some r := rfl
@[simp] theorem State.answer_mem (r : Reply) : (s.answer r).mem = s.mem := rfl
@[simp] theorem State.answer_len (r : Reply) : (s.answer r).len = s.len := rfl
@[simp] theorem State.answer_cur (r : Reply) : (s.answer r).cur = s.cur := rfl
@[simp] theorem State.answer_phase (r : Reply) : (s.answer r).phase = s.phase := rfl
@[simp] theorem State.answer_err (r : Reply) : (s.answer r).err = s.err := rfl
@[simp] theorem State.answer_errField (r : Reply) : (s.answer r).errField = s.errField := rfl
@[simp] theorem State.answer_errPos (r : Reply) : (s.answer r).errPos = s.errPos := rfl
@[simp] theorem State.answer_msg (r : Reply) : (s.answer r).msg = s.msg := rfl
@[simp] theorem State.answer_recs (r : Reply) : (s.answer r).recs = s.recs := rfl

/-! ### `State.loaded`: `LOAD`. -/

@[simp] theorem State.loaded_cfg (bytes : List Byte) : (s.loaded bytes).cfg = s.cfg := rfl
@[simp] theorem State.loaded_agenda (bytes : List Byte) : (s.loaded bytes).agenda = s.agenda := rfl
@[simp] theorem State.loaded_reply (bytes : List Byte) : (s.loaded bytes).reply = s.reply := rfl
@[simp] theorem State.loaded_mem (bytes : List Byte) : (s.loaded bytes).mem = Memory.writeBytes s.mem 0 bytes := rfl
@[simp] theorem State.loaded_len (bytes : List Byte) : (s.loaded bytes).len = bytes.length := rfl
@[simp] theorem State.loaded_cur (bytes : List Byte) : (s.loaded bytes).cur = s.cur := rfl
@[simp] theorem State.loaded_phase (bytes : List Byte) : (s.loaded bytes).phase = s.phase := rfl
@[simp] theorem State.loaded_err (bytes : List Byte) : (s.loaded bytes).err = s.err := rfl
@[simp] theorem State.loaded_errField (bytes : List Byte) : (s.loaded bytes).errField = s.errField := rfl
@[simp] theorem State.loaded_errPos (bytes : List Byte) : (s.loaded bytes).errPos = s.errPos := rfl
@[simp] theorem State.loaded_msg (bytes : List Byte) : (s.loaded bytes).msg = s.msg := rfl
@[simp] theorem State.loaded_recs (bytes : List Byte) : (s.loaded bytes).recs = s.recs := rfl

/-! ### `State.hostReset`: `RESET`. -/

@[simp] theorem State.hostReset_cfg : (s.hostReset).cfg = s.cfg := rfl
@[simp] theorem State.hostReset_agenda : (s.hostReset).agenda = s.agenda := rfl
@[simp] theorem State.hostReset_reply : (s.hostReset).reply = s.reply := rfl
@[simp] theorem State.hostReset_mem : (s.hostReset).mem = [] := rfl
@[simp] theorem State.hostReset_len : (s.hostReset).len = 0 := rfl
@[simp] theorem State.hostReset_cur : (s.hostReset).cur = 0 := rfl
@[simp] theorem State.hostReset_phase : (s.hostReset).phase = .idle := rfl
@[simp] theorem State.hostReset_err : (s.hostReset).err = .noError := rfl
@[simp] theorem State.hostReset_errField : (s.hostReset).errField = 0 := rfl
@[simp] theorem State.hostReset_errPos : (s.hostReset).errPos = 0 := rfl
@[simp] theorem State.hostReset_msg : (s.hostReset).msg = Msg.reset s.cfg.imeiMode := rfl
@[simp] theorem State.hostReset_recs : (s.hostReset).recs = [] := rfl

/-! ### `State.fresh`: `START`'s first line. -/

@[simp] theorem State.fresh_cfg : (s.fresh).cfg = s.cfg := rfl
@[simp] theorem State.fresh_agenda : (s.fresh).agenda = s.agenda := rfl
@[simp] theorem State.fresh_reply : (s.fresh).reply = s.reply := rfl
@[simp] theorem State.fresh_mem : (s.fresh).mem = s.mem := rfl
@[simp] theorem State.fresh_len : (s.fresh).len = s.len := rfl
@[simp] theorem State.fresh_cur : (s.fresh).cur = 0 := rfl
@[simp] theorem State.fresh_phase : (s.fresh).phase = s.phase := rfl
@[simp] theorem State.fresh_err : (s.fresh).err = .noError := rfl
@[simp] theorem State.fresh_errField : (s.fresh).errField = 0 := rfl
@[simp] theorem State.fresh_errPos : (s.fresh).errPos = 0 := rfl
@[simp] theorem State.fresh_msg : (s.fresh).msg = Msg.reset s.cfg.imeiMode := rfl
@[simp] theorem State.fresh_recs : (s.fresh).recs = [] := rfl

/-! ### `State.begin`: `START`'s last two lines. -/

@[simp] theorem State.begin_cfg (b : Byte) : (s.begin b).cfg = s.cfg := rfl
@[simp] theorem State.begin_agenda (b : Byte) : (s.begin b).agenda = s.agenda := rfl
@[simp] theorem State.begin_reply (b : Byte) : (s.begin b).reply = s.reply := rfl
@[simp] theorem State.begin_mem (b : Byte) : (s.begin b).mem = s.mem := rfl
@[simp] theorem State.begin_len (b : Byte) : (s.begin b).len = s.len := rfl
@[simp] theorem State.begin_cur (b : Byte) : (s.begin b).cur = s.cur := rfl
@[simp] theorem State.begin_phase (b : Byte) : (s.begin b).phase = .run := rfl
@[simp] theorem State.begin_err (b : Byte) : (s.begin b).err = s.err := rfl
@[simp] theorem State.begin_errField (b : Byte) : (s.begin b).errField = s.errField := rfl
@[simp] theorem State.begin_errPos (b : Byte) : (s.begin b).errPos = s.errPos := rfl
@[simp] theorem State.begin_msg (b : Byte) : (s.begin b).msg = { s.msg with protocolHeader := b } := rfl
@[simp] theorem State.begin_recs (b : Byte) : (s.begin b).recs = s.recs := rfl

/-! ### `State.raise`: Failure entry. -/

@[simp] theorem State.raise_cfg (f : Failure) : (s.raise f).cfg = s.cfg := rfl
@[simp] theorem State.raise_agenda (f : Failure) : (s.raise f).agenda = s.agenda := rfl
@[simp] theorem State.raise_reply (f : Failure) : (s.raise f).reply = s.reply := rfl
@[simp] theorem State.raise_mem (f : Failure) : (s.raise f).mem = s.mem := rfl
@[simp] theorem State.raise_len (f : Failure) : (s.raise f).len = s.len := rfl
@[simp] theorem State.raise_cur (f : Failure) : (s.raise f).cur = s.cur := rfl
@[simp] theorem State.raise_phase (f : Failure) : (s.raise f).phase = .fail := rfl
@[simp] theorem State.raise_err (f : Failure) : (s.raise f).err = f.1 := rfl
@[simp] theorem State.raise_errField (f : Failure) : (s.raise f).errField = f.2 := rfl
@[simp] theorem State.raise_errPos (f : Failure) : (s.raise f).errPos = s.cur := rfl
@[simp] theorem State.raise_msg (f : Failure) : (s.raise f).msg = Msg.reset s.cfg.imeiMode := rfl
@[simp] theorem State.raise_recs (f : Failure) : (s.raise f).recs = [] := rfl

/-! ### `State.advance`: The cursor moves. -/

@[simp] theorem State.advance_cfg (n : Nat) : (s.advance n).cfg = s.cfg := rfl
@[simp] theorem State.advance_agenda (n : Nat) : (s.advance n).agenda = s.agenda := rfl
@[simp] theorem State.advance_reply (n : Nat) : (s.advance n).reply = s.reply := rfl
@[simp] theorem State.advance_mem (n : Nat) : (s.advance n).mem = s.mem := rfl
@[simp] theorem State.advance_len (n : Nat) : (s.advance n).len = s.len := rfl
@[simp] theorem State.advance_cur (n : Nat) : (s.advance n).cur = s.cur + n := rfl
@[simp] theorem State.advance_phase (n : Nat) : (s.advance n).phase = s.phase := rfl
@[simp] theorem State.advance_err (n : Nat) : (s.advance n).err = s.err := rfl
@[simp] theorem State.advance_errField (n : Nat) : (s.advance n).errField = s.errField := rfl
@[simp] theorem State.advance_errPos (n : Nat) : (s.advance n).errPos = s.errPos := rfl
@[simp] theorem State.advance_msg (n : Nat) : (s.advance n).msg = s.msg := rfl
@[simp] theorem State.advance_recs (n : Nat) : (s.advance n).recs = s.recs := rfl

/-! ### `State.heartbeat`: A heartbeat's writes. -/

@[simp] theorem State.heartbeat_cfg (tid : Chars) : (s.heartbeat tid).cfg = s.cfg := rfl
@[simp] theorem State.heartbeat_agenda (tid : Chars) : (s.heartbeat tid).agenda = s.agenda := rfl
@[simp] theorem State.heartbeat_reply (tid : Chars) : (s.heartbeat tid).reply = s.reply := rfl
@[simp] theorem State.heartbeat_mem (tid : Chars) : (s.heartbeat tid).mem = s.mem := rfl
@[simp] theorem State.heartbeat_len (tid : Chars) : (s.heartbeat tid).len = s.len := rfl
@[simp] theorem State.heartbeat_cur (tid : Chars) : (s.heartbeat tid).cur = s.cur := rfl
@[simp] theorem State.heartbeat_phase (tid : Chars) : (s.heartbeat tid).phase = s.phase := rfl
@[simp] theorem State.heartbeat_err (tid : Chars) : (s.heartbeat tid).err = s.err := rfl
@[simp] theorem State.heartbeat_errField (tid : Chars) : (s.heartbeat tid).errField = s.errField := rfl
@[simp] theorem State.heartbeat_errPos (tid : Chars) : (s.heartbeat tid).errPos = s.errPos := rfl
@[simp] theorem State.heartbeat_msg (tid : Chars) : (s.heartbeat tid).msg = { s.msg with containsHealthcheck := true, terminalId := tid } := rfl
@[simp] theorem State.heartbeat_recs (tid : Chars) : (s.heartbeat tid).recs = s.recs := rfl

/-! ### `State.commit`: The commit of a data frame. -/

@[simp] theorem State.commit_cfg (st : Staged) : (s.commit st).cfg = s.cfg := rfl
@[simp] theorem State.commit_agenda (st : Staged) : (s.commit st).agenda = s.agenda := rfl
@[simp] theorem State.commit_reply (st : Staged) : (s.commit st).reply = s.reply := rfl
@[simp] theorem State.commit_mem (st : Staged) : (s.commit st).mem = s.mem := rfl
@[simp] theorem State.commit_len (st : Staged) : (s.commit st).len = s.len := rfl
@[simp] theorem State.commit_cur (st : Staged) : (s.commit st).cur = s.cur := rfl
@[simp] theorem State.commit_phase (st : Staged) : (s.commit st).phase = s.phase := rfl
@[simp] theorem State.commit_err (st : Staged) : (s.commit st).err = s.err := rfl
@[simp] theorem State.commit_errField (st : Staged) : (s.commit st).errField = s.errField := rfl
@[simp] theorem State.commit_errPos (st : Staged) : (s.commit st).errPos = s.errPos := rfl
@[simp] theorem State.commit_msg (st : Staged) : (s.commit st).msg = s.msg.withStaged st := rfl
@[simp] theorem State.commit_recs (st : Staged) : (s.commit st).recs = s.recs ++ [st.record] := rfl

/-! ### `State.finish`: The end of the walk. -/

@[simp] theorem State.finish_cfg : (s.finish).cfg = s.cfg := rfl
@[simp] theorem State.finish_agenda : (s.finish).agenda = s.agenda := rfl
@[simp] theorem State.finish_reply : (s.finish).reply = s.reply := rfl
@[simp] theorem State.finish_mem : (s.finish).mem = s.mem := rfl
@[simp] theorem State.finish_len : (s.finish).len = s.len := rfl
@[simp] theorem State.finish_cur : (s.finish).cur = s.cur := rfl
@[simp] theorem State.finish_phase : (s.finish).phase = .done := rfl
@[simp] theorem State.finish_err : (s.finish).err = s.err := rfl
@[simp] theorem State.finish_errField : (s.finish).errField = s.errField := rfl
@[simp] theorem State.finish_errPos : (s.finish).errPos = s.errPos := rfl
@[simp] theorem State.finish_msg : (s.finish).msg = s.msg := rfl
@[simp] theorem State.finish_recs : (s.finish).recs = s.recs := rfl

@[simp] theorem State.commit_nrec (st : Staged) : (s.commit st).nrec = s.nrec + 1 := by simp [State.nrec]

/-- The fields of a message after a data frame (R155): `containsHealthcheck` is the heartbeat's. -/
@[simp] theorem Msg.withStaged_containsHealthcheck (m : Msg) (st : Staged) :
    (m.withStaged st).containsHealthcheck = m.containsHealthcheck := rfl

end Sys2Proof.Machine
end

