-- ==== Sys2Proof/Laws/Step.lean ====
section
/-! SUPPORT. One lemma per shared operation that says everything it can do: the meanings of the frames and the host
operations, the fetch, the walk and the step. -/

namespace Sys2Proof.Machine

/-! ## Meanings -/

theorem execCmd_next {body : List Byte} {closed : Bool} {s t : State} (h : execCmd body closed s = .next t) :
    (closed = true ∧ t = s.advance (body.length + 2)) ∨ (closed = false ∧ t = s.raise (.incompleteField, 30)) := by
  cases closed with
  | true => exact .inl ⟨rfl, by simpa [execCmd] using h.symm⟩
  | false => exact .inr ⟨rfl, by simpa [execCmd] using h.symm⟩

theorem execData_next {fields : List (List Byte)} {cut : List Byte} {s t : State}
    (h : execData fields cut s = .next t) :
    (∃ e, dataFrame s.cfg fields = .error e ∧ t = s.raise e) ∨
    (∃ st, dataFrame s.cfg fields = .ok st ∧ t = (s.commit st).advance (dataLen s.cfg.imeiMode)) := by
  unfold execData at h
  split at h
  · next e he => exact .inl ⟨e, he, by simpa using h.symm⟩
  · next st hst => exact .inr ⟨st, hst, by simpa using h.symm⟩

theorem execLoad_next {bytes : List Byte} {s t : State} (h : execLoad bytes s = .next t) :
    (s.phase = .run ∧ t = s) ∨ (s.phase ≠ .run ∧ bytes.length ≤ s.cfg.bufMax ∧ t = s.loaded bytes) := by
  unfold execLoad at h
  split at h
  · next hp => exact .inl ⟨hp, by simpa using h.symm⟩
  · next hp =>
    split at h
    · next hl => exact .inr ⟨hp, hl, by simpa using h.symm⟩
    · simp at h

theorem execStart_next {s t : State} (h : execStart s = .next t) :
    (s.phase = .run ∧ t = s) ∨
    (s.phase ≠ .run ∧ s.len < minLen ∧ t = s.fresh.raise (.frameTooShort, 0)) ∨
    (s.phase ≠ .run ∧ minLen ≤ s.len ∧ ∃ b, Memory.read s.mem 0 = some b ∧
      (((b = markerData ∨ b = markerParen) ∧ t = s.fresh.begin b) ∨
       (¬ (b = markerData ∨ b = markerParen) ∧ t = s.fresh.raise (.unrecognizedHeader, 1)))) := by
  unfold execStart at h
  split at h
  · next hp => exact .inl ⟨hp, by simpa using h.symm⟩
  · next hp =>
    split at h
    · next hl => exact .inr (.inl ⟨hp, hl, by simpa using h.symm⟩)
    · next hl =>
      refine .inr (.inr ⟨hp, Nat.le_of_not_lt hl, ?_⟩)
      split at h
      · simp at h
      · next b hb =>
        refine ⟨b, hb, ?_⟩
        split at h
        · next hm => exact .inl ⟨hm, by simpa using h.symm⟩
        · next hm => exact .inr ⟨hm, by simpa using h.symm⟩

theorem execRead_next {name : ReadName} {s t : State} (h : execRead name s = .next t) :
    s.phase ≠ .run ∧ ∃ v, s.readView name = some v ∧ t = s.answer (.read v) := by
  unfold execRead at h
  split at h
  · simp at h
  · next hp =>
    split at h
    · next v hv => exact ⟨hp, v, hv, by simpa using h.symm⟩
    · simp at h

/-- An operation that only answers: `POLL`, the port operations and the host-software functions. -/
def Instr.onlyAnswers : Instr → Bool
  | .hbeat _ _ | .cmd _ _ | .data _ _ | .illegal _ | .reset | .load _ | .start | .read _ => false
  | _ => true

theorem exec_onlyAnswers {i : Instr} (hi : Instr.onlyAnswers i = true) (s : State) :
    ∃ r, exec i s = .next (s.answer r) := by
  cases i <;> first | exact ⟨_, rfl⟩ | simp [Instr.onlyAnswers] at hi

/-! ## The fetch and the walk -/

theorem State.fetch_eq_ok {s : State} {i : Instr} (h : s.fetch = .ok i) :
    ∃ bytes rest, s.window = .ok bytes ∧ decode s.cfg.imeiMode bytes = .ok (i, rest) := by
  unfold State.fetch at h
  split at h
  · simp at h
  · next bytes hb =>
    split at h
    · simp at h
    · next r hr =>
      simp only [Except.ok.injEq] at h
      exact ⟨bytes, r.2, hb, by rw [hr, ← h]⟩

/-- A fetched instruction is a well-formed frame, and its bytes lie below `LEN` (R63). -/
theorem State.fetch_frame {s : State} {i : Instr} (h : s.fetch = .ok i) :
    i.wellFormed s.cfg.imeiMode = true ∧ i.isHostOp = false ∧
      ∃ own, encode i = some own ∧ own.length ≤ s.len - s.cur := by
  obtain ⟨bytes, rest, hw, hd⟩ := State.fetch_eq_ok h
  have hl := (Memory.readBytes_eq_ok.1 hw).1
  refine ⟨decode_wellFormed hd, ?_⟩
  obtain ⟨m, bs, rfl, ⟨-, hh, rfl, -⟩ | ⟨-, -, rfl, -⟩ | ⟨-, rfl, -⟩ | ⟨-, -, rfl, -⟩⟩ := decode_cases hd
  · refine ⟨rfl, _, rfl, ?_⟩
    have := (isHeartbeat_iff.1 hh).1
    simp [trailer] at this hl ⊢
    omega
  · refine ⟨rfl, _, rfl, ?_⟩
    rcases scanClose_eq bs with ⟨h1, h2⟩ | ⟨r, h1, h2⟩
    · rw [h1, ← hl, ← h2]; simp
    · rw [h1, ← hl]
      have := congrArg List.length h2
      simp at this ⊢
      omega
  · refine ⟨rfl, _, rfl, ?_⟩
    have := congrArg List.length (cutFields_flatten (fieldSizes s.cfg.imeiMode) (m :: bs))
    rw [← hl, ← this]; simp
  · exact ⟨rfl, _, rfl, by simp at hl ⊢; omega⟩

/-- Where the cursor is within `LEN` and every address below `LEN` holds a value, the window is all of the rest. -/
theorem State.window_of_readable {s : State} (h : ∀ a < s.len, (Memory.read s.mem a).isSome = true) :
    ∃ bytes, s.window = .ok bytes ∧ bytes.length = s.len - s.cur := by
  obtain ⟨bs, hbs⟩ := Memory.readBytes_of_readable (m := s.mem) (a := s.cur) (n := s.len - s.cur)
    fun i hi => h _ (by omega)
  exact ⟨bs, hbs, (Memory.readBytes_eq_ok.1 hbs).1⟩

/-- Everything the decoder's turn can answer a next state by. -/
theorem walk_next {s t : State} (h : walk s = .next t) :
    (s.phase ≠ .run ∧ t = s) ∨
    (s.phase = .run ∧ s.cur = s.len ∧ t = s.finish) ∨
    (s.phase = .run ∧ s.cur ≠ s.len ∧ ∃ i, s.fetch = .ok i ∧ exec i s = .next t) := by
  unfold walk at h
  split at h
  · next hp =>
    split at h
    · next hc => exact .inr (.inl ⟨hp, hc, by simpa using h.symm⟩)
    · next hc =>
      split at h
      · simp at h
      · next i hi => exact .inr (.inr ⟨hp, hc, i, hi, h⟩)
  · next hp => exact .inl ⟨hp, by simpa using h.symm⟩

/-! ## The step -/

theorem State.popTurn_of_nil {s : State} (h : s.agenda = []) : s.popTurn = s := by
  cases s; simp_all [State.popTurn]

theorem step_decoder {s : State} (h : s.decoderMoves) : step s = walk s.popTurn := by
  rcases h with h | h
  · simp [step, h, State.popTurn_of_nil h]
  · obtain ⟨r, ha⟩ := List.head?_eq_some_iff.1 h
    simp [step, ha]

theorem step_host {s : State} {i : Instr} (h : s.hostIssues i) : step s = exec i s.popTurn := by
  obtain ⟨op, h, rfl⟩ := h
  obtain ⟨r, ha⟩ := List.head?_eq_some_iff.1 h
  simp [step, ha]

/-- It is the decoder's turn, or the host's with an operation a host can issue. -/
theorem turn_cases (s : State) : s.decoderMoves ∨ ∃ i, s.hostIssues i ∧ i.isHostOp = true := by
  cases ha : s.agenda with
  | nil => exact .inl (.inl ha)
  | cons t r =>
    cases t with
    | decoder => exact .inl (.inr (by simp [ha]))
    | host op => exact .inr ⟨op.instr, ⟨op, by simp [ha], rfl⟩, op.isHost⟩

/-- Whose turn it is is one of the two. -/
theorem not_decoderMoves_of_hostIssues {s : State} {i : Instr} (h : s.hostIssues i) : ¬ s.decoderMoves := by
  obtain ⟨op, h, -⟩ := h
  rintro (hd | hd)
  · simp [hd] at h
  · simp [hd] at h

end Sys2Proof.Machine
end

