-- ==== Sys2Proof/Tests/Slice0.lean ====
section
/-! SUPPORT. The model's own tests: the well-formedness checks, decoding of words written out from the spec, small
steps with results from spec/95_test_vectors.md, and a witness for every statement that has hypotheses. -/

namespace Sys2Proof.Tests

open Machine

/-! ## Buffers and states -/

/-- `F`: the data frame of R87. -/
def frameF : List Byte :=
  [0x24, 0x80, 0x00, 0x62, 0x00, 0x11, 0x19, 0x11, 0x00, 0x34, 0x18, 0x04, 0x21, 0x16, 0x22, 0x59] ++
  [0x22, 0x34, 0x83, 0x10, 0x11, 0x35, 0x50, 0x54, 0x3F, 0x12, 0x98, 0x00, 0x00, 0x00, 0x2D, 0x06] ++
  [0x00, 0x00, 0x00, 0x00, 0x20, 0xE0, 0x28, 0x10, 0x92, 0x28, 0x66, 0x1F, 0x00, 0x01, 0x00, 0x00] ++
  [0x86, 0x88, 0x22, 0x04, 0x02, 0x48, 0x19, 0x5F, 0x00, 0x00, 0x01, 0xCC, 0x01, 0x56]

/-- The 28 fields of `F`, cut by hand from the words of R87. -/
def fieldsF : List (List Byte) :=
  [[0x24], [0x80, 0x00, 0x62, 0x00, 0x11], [0x19], [0x11], [0x00, 0x34], [0x18, 0x04, 0x21], [0x16, 0x22, 0x59],
   [0x22, 0x34, 0x83, 0x10], [0x11, 0x35, 0x50, 0x54, 0x3F], [0x12], [0x98], [0x00, 0x00, 0x00, 0x2D], [0x06]] ++
  [[0x00, 0x00, 0x00, 0x00], [0x20], [0xE0], [0x28], [0x10, 0x92, 0x28, 0x66], [0x1F], [0x00], [0x01], [0x00],
   [0x00]] ++
  [[0x86, 0x88, 0x22, 0x04, 0x02, 0x48, 0x19, 0x5F], [0x00, 0x00], [0x01, 0xCC], [0x01], [0x56]]

/-- `H`: the heartbeat frame of R103. -/
def frameH : List Byte :=
  [0x28, 0x37, 0x30, 0x30, 0x30, 0x33, 0x31, 0x33, 0x33, 0x33, 0x34, 0x2C, 0x40, 0x4A, 0x54, 0x29]

/-- The characters "7000313334". -/
def tidH : Chars := [0x37, 0x30, 0x30, 0x30, 0x33, 0x31, 0x33, 0x33, 0x33, 0x34]

/-- A decode of `buf` at the cursor `cur`, on the decoder's turn. -/
def running (buf : List Byte) (cur : Nat) : State :=
  { State.reset with
    mem := Memory.writeBytes [] 0 buf, len := buf.length, cur := cur, phase := .run
    msg := { Msg.reset .hex8 with protocolHeader := 0x28 } }

/-- The state in which the next turn is the host's, with the operation `i`. -/
def State.issue (s : State) (i : Instr) (h : i.isHostOp = true) : State := { s with agenda := [.host ⟨i, h⟩] }

/-- A loaded buffer, nothing decoded. -/
def loadedWith (buf : List Byte) : State := State.reset.loaded buf

/-- The record of S3, from the table of spec/95_test_vectors.md. -/
def recordF : Record where
  utimeMillis := 180421162259
  utimeSeconds := 180421162
  date := [0x31, 0x38, 0x30, 0x34, 0x32, 0x31]
  time := [0x31, 0x36, 0x32, 0x32, 0x35, 0x39]
  latRaw := 22348310
  lngRaw := 113550543
  directionIndicator := 0x46
  speed := 18
  angle := 152
  distanceKm := 45
  visibleSatellites := 6
  cellIdPositionCode := 0x10922866
  mcc := 460
  mncHighByte := 0
  mncLowByte := 1
  gsmSignalQuality := 31
  fenceAlarmId := 0
  expandedDeviceStatus := 1
  expandedDeviceStatus2 := 0
  batteryLevelPercent := 40
  serialNo := 86
  highEvents := 0x20
  lowEvents := 0xE0

/-- The end of the decode of `F` (S3, R157). -/
def doneF : State :=
  { State.reset with
    phase := .done
    msg := { Msg.reset .hex8 with
      protocolHeader := 0x24, protocolVersion := 0x19, deviceType := 1, dataType := 1
      terminalId := [0x38, 0x30, 0x30, 0x30, 0x36, 0x32, 0x30, 0x30, 0x31, 0x31] }
    recs := [recordF] }

/-- The next state of an answer, when there is one. -/
def after (r : Answer) : Option State :=
  match r with
  | .next t => some t
  | .fault _ | .refused _ => none

/-- There is a next state, with a checked property. -/
theorem next_of_after {r : Answer} (p : State → Prop) [DecidablePred p] (h : (after r).any (fun t => decide (p t)) = true) :
    ∃ t, r = .next t ∧ p t := by
  cases r with
  | next t => exact ⟨t, rfl, by simpa [after] using h⟩
  | fault _ | refused _ => simp [after] at h

/-- The reply in the next state of an answer. -/
def said (r : Answer) : Option Reply := (after r).bind (·.reply)

/-! ## Well-formedness: an ill-formed term for each check -/

theorem test_wf_hbeat_identifier : (Instr.hbeat [0x37] [0, 0]).wellFormed .hex8 = false := by decide
theorem test_wf_hbeat_unnamed : (Instr.hbeat tidH [0]).wellFormed .hex8 = false := by decide
theorem test_wf_cmd_closing_in_body : (Instr.cmd [0x50, 0x29] true).wellFormed .hex8 = false := by decide
theorem test_wf_cmd_reads_as_heartbeat :
    (Instr.cmd [0, 0, 0, 0, 0, 0, 0, 0, 0, 0, 0, 0, 0x4A, 0x54] true).wellFormed .hex8 = false := by decide
theorem test_wf_data_marker : (Instr.data [[0x25]] []).wellFormed .hex8 = false := by decide
theorem test_wf_data_no_field : (Instr.data [] [0x24]).wellFormed .hex8 = false := by decide
theorem test_wf_data_size : (Instr.data [[0x24], [0, 0, 0, 0]] []).wellFormed .hex8 = false := by decide
theorem test_wf_data_cut_too_long : (Instr.data [[0x24]] [0, 0, 0, 0, 0]).wellFormed .hex8 = false := by decide
theorem test_wf_data_cut_after_last : (Instr.data fieldsF [0]).wellFormed .hex8 = false := by decide
theorem test_wf_data_too_many : (Instr.data (fieldsF ++ [[0]]) []).wellFormed .hex8 = false := by decide
theorem test_wf_data_imei_mode : (Instr.data fieldsF []).wellFormed .ascii15 = false := by decide
theorem test_wf_illegal_data : (Instr.illegal 0x24).wellFormed .hex8 = false := by decide
theorem test_wf_illegal_paren : (Instr.illegal 0x28).wellFormed .hex8 = false := by decide
theorem test_wf_dateLabel : (Instr.dateLabel [0x31]).wellFormed .hex8 = false := by decide

/-! ## Decoding: words written out from R76, R79, R80, R82 -/

theorem test_decode_hbeat : decode .hex8 frameH = .ok (.hbeat tidH [0x2C, 0x40], []) := by decide
theorem test_decode_data : decode .hex8 (frameF ++ [0x28]) = .ok (.data fieldsF [], [0x28]) := by decide
/-- V17: 0x24 and 0x28 in a command body are body bytes. -/
theorem test_decode_cmd :
    decode .hex8 [0x28, 0x24, 0x28, 0x28, 0x28, 0x28, 0x28, 0x28, 0x28, 0x28, 0x28, 0x28, 0x28, 0x28, 0x28, 0x28, 0x29] =
      .ok (.cmd [0x24, 0x28, 0x28, 0x28, 0x28, 0x28, 0x28, 0x28, 0x28, 0x28, 0x28, 0x28, 0x28, 0x28, 0x28] true, []) := by
  decide
/-- V19: the trailer test comes before the scan. -/
theorem test_decode_hbeat_with_closing_inside :
    decode .hex8 [0x28, 0x29, 0x30, 0x30, 0x30, 0x33, 0x31, 0x33, 0x33, 0x33, 0x34, 0x2C, 0x40, 0x4A, 0x54, 0x29] =
      .ok (.hbeat [0x29, 0x30, 0x30, 0x30, 0x33, 0x31, 0x33, 0x33, 0x33, 0x34] [0x2C, 0x40], []) := by decide
/-- R102: 15 bytes are never a heartbeat. -/
theorem test_decode_cmd_short : decode .hex8 (frameH.take 15) = .ok (.cmd ((frameH.take 15).drop 1) false, []) := by
  decide
theorem test_decode_illegal : decode .hex8 [0x00, 0x24] = .ok (.illegal 0x00, [0x24]) := by decide
theorem test_decode_nothing : decode .hex8 [] = .error .noBytes := by decide
/-- V26 under `ASCII15`: the 15 bytes at offset 48 are field 24. -/
theorem test_decode_ascii15 :
    ((cutFields (fieldSizes .ascii15) (frameF.take 48 ++ [0x38, 0x36, 0x38, 0x38, 0x32, 0x32, 0x30, 0x34, 0x30, 0x32,
      0x34, 0x38, 0x31, 0x39, 0x35, 0x00, 0x00, 0x01, 0xCC, 0x01, 0x56])).1.drop 23) =
      [[0x38, 0x36, 0x38, 0x38, 0x32, 0x32, 0x30, 0x34, 0x30, 0x32, 0x34, 0x38, 0x31, 0x39, 0x35], [0x00, 0x00],
       [0x01, 0xCC], [0x01], [0x56]] := by decide
/-- The table's row of `HBEAT`: its match, byte 0 in bits 7..0. -/
theorem test_table_word_hbeat :
    decodeTableWord 128 0x29544A00000000000000000000000028 =
      some (.hbeat [0, 0, 0, 0, 0, 0, 0, 0, 0, 0] [0, 0]) := by decide
theorem test_table_word_cmd : decodeTableWord 16 0x2928 = some (.cmd [] true) := by decide
theorem test_table_word_illegal : decodeTableWord 8 0x25 = some (.illegal 0x25) := by decide
/-- `step` after reset runs exactly the word placed: a heartbeat. -/
theorem test_step_runs_word :
    ((after (step (State.reset.withFetchWord 128 0x29544A00000000000000000000000028))).map fun t =>
      (t.msg.containsHealthcheck, t.cur, t.agenda)) = some (true, 16, []) := by decide

/-! ## Frames -/

/-- S7. -/
theorem test_hbeat : ((after (exec (.hbeat tidH [0x2C, 0x40]) (running frameH 0))).map fun t =>
    (t.msg.containsHealthcheck, t.msg.terminalId, t.cur, t.nrec)) = some (true, tidH, 16, 0) := by decide
/-- R104's example. -/
theorem test_cmd : (after (exec (.cmd [0x50, 0x30, 0x34] true) (running [] 62))).map (·.cur) = some 67 := by decide
/-- V18. -/
theorem test_cmd_unclosed : ((after (exec (.cmd [0x41] false) (running [] 0))).map fun t =>
    (t.phase, t.err.code, t.errField, t.errPos)) = some (.fail, 5, 30, 0) := by decide
/-- S3, with its strings "868822040248195F", "8000620011", "00000000". -/
theorem test_data : ((after (exec (.data fieldsF []) (running frameF 0))).map fun t =>
    (t.recs, t.msg.protocolHeader, t.msg.protocolVersion, t.msg.deviceType, t.msg.dataType, t.cur)) =
      some ([recordF], 0x24, 0x19, 1, 1, 62) ∧
    ((after (exec (.data fieldsF []) (running frameF 0))).map fun t =>
      (t.msg.imei, t.msg.terminalId, t.msg.bindVehicleId)) =
      some ([0x38, 0x36, 0x38, 0x38, 0x32, 0x32, 0x30, 0x34, 0x30, 0x32, 0x34, 0x38, 0x31, 0x39, 0x35, 0x46],
        [0x38, 0x30, 0x30, 0x30, 0x36, 0x32, 0x30, 0x30, 0x31, 0x31], List.replicate 8 0x30) := by decide
/-- V27, V28, V31, V33 to V36: what each failing frame reports. -/
theorem test_data_failures :
    ([frameF.take 61, frameF.take 16, (frameF.set 26 0xFF).take 40, frameF.set 26 0xB5, frameF.set 17 0x3A,
        frameF.set 24 0xAF, frameF.set 10 0x1B].map fun f =>
      (after (walk (running f 0))).map fun t => (t.err.code, t.errField, t.errPos)) =
      [some (5, 28, 0), some (5, 8, 0), some (4, 11, 0), some (4, 11, 0), some (6, 8, 0), some (6, 9, 0),
        some (6, 29, 0)] := by decide
/-- V24. -/
theorem test_illegal : ((after (exec (.illegal 0x00) (running [] 62))).map fun t =>
    (t.phase, t.err.code, t.errField, t.errPos, t.recs)) = some (.fail, 3, 1, 62, []) := by decide

/-! ## Host operations -/

/-- V90. -/
theorem test_reset : ((after (exec .reset (running frameH 16))).map fun t => (t.phase, t.err.code, t.len, t.cur)) =
    some (.idle, 0, 0, 0) := by decide
/-- V93: `LOAD` does not touch the result. -/
theorem test_load : ((after (exec (.load frameH) doneF)).map fun t => (t.len, Memory.read t.mem 15, t.recs)) =
    some (16, some 0x29, [recordF]) := by decide
theorem test_load_running : exec (.load [1]) (running frameH 0) = .next (running frameH 0) := rfl
/-- V91, V10: `FrameTooShort`. -/
theorem test_start_short : ([State.reset, loadedWith (frameH.take 15)].map fun s =>
    (after (exec .start s)).map fun t => (t.phase, t.err.code, t.errField, t.errPos)) =
      [some (.fail, 2, 0, 0), some (.fail, 2, 0, 0)] := by decide
/-- V12, and `LEN = 16` with a known header. -/
theorem test_start_header : ([loadedWith (0x25 :: frameH.drop 1), loadedWith frameH].map fun s =>
    (after (exec .start s)).map fun t => (t.phase, t.err.code, t.errField, t.msg.protocolHeader)) =
      [some (.fail, 3, 1, 0), some (.run, 0, 0, 0x28)] := by decide
/-- V96: code 3, and `ERR`, `ERRFIELD`, `ERRPOS`. -/
theorem test_poll : said (exec .poll ((running frameF 62).raise (.fieldOutOfRange, 11))) =
    some (.poll 3 (some { err := 4, errField := 11, errPos := 62 })) := by decide
theorem test_poll_idle : said (exec .poll State.reset) = some (.poll 0 none) := by decide
/-- S3: the accessors of the cell position. -/
theorem test_read : ([ReadName.nrec, .record 0 .cellId, .record 0 .lac].map fun n => said (exec (.read n) doneF)) =
    [some (.read (.num 1)), some (.read (.num 4242)), some (.read (.num 10342))] := by decide
/-- R276: past the records and during `RUN` the read is refused. -/
theorem test_read_refused :
    exec (.read (.record 1 .speed)) doneF = .refused (.readPastRecords 1) ∧
    exec (.read .imei) (running frameH 0) = .refused .readWhileRunning := ⟨rfl, rfl⟩

/-! ## Port operations -/

/-- V60. -/
theorem test_evtHas : said (exec (.evtHas 0xE0 (.low .AckRequired)) State.reset) = some (.evtHas true) ∧
    said (exec (.evtHas 0xE0 (.low .RopeCut)) State.reset) = some (.evtHas false) := by decide
/-- V61. -/
theorem test_evtAdd : said (exec (.evtAdd 0x20 (.high .LowBattery)) State.reset) = some (.evtAdd 0x28) ∧
    said (exec (.evtAdd 0x28 (.high .LowBattery)) State.reset) = some (.evtAdd 0x28) := by decide
/-- V65, V67. -/
theorem test_evtRender :
    said (exec (.evtRender .low 0xE0) State.reset) =
      some (.evtRender ["AckRequired", "RopeInserted", "MotorLocked"] "AckRequired|RopeInserted|MotorLocked") ∧
    said (exec (.evtRender .high 0) State.reset) = some (.evtRender [] "") := by decide
/-- V64. -/
theorem test_evtRender_all : evtText .high 0xFF =
    "LongTimeUnlocking|WrongPassword|Swipe|LowBattery|CoverOpen|CoverClosed|MotorStuck|Reserved" := by decide
/-- V70, V71. -/
theorem test_chkLat : ([0, 22348310, 849999999, 850000000, -1, -849999999, -850000000, -2147483648].map fun v =>
    said (exec (.chkLat (BitVec.ofInt 32 v)) State.reset)) =
      [true, true, true, false, true, true, false, false].map fun b => some (.check b) := by decide
/-- V72, V73. -/
theorem test_chkLng : ([0, 1799999999, 1800000000, 2147483647, -1799999999, -1800000000, -2147483648].map fun v =>
    said (exec (.chkLng (BitVec.ofInt 32 v)) State.reset)) =
      [true, true, false, false, true, false, false].map fun b => some (.check b) := by decide
/-- V74. -/
theorem test_chkAngle : ([0, 152, 180, 181, 255].map fun a => said (exec (.chkAngle a) State.reset)) =
    [true, true, true, false, false].map fun b => some (.check b) := by decide

/-! ## The splitter -/

/-- V46, V49, V51. -/
theorem test_split : (["", "2424", "24AB CD 24 EF01", "2 424AB"].map fun t => split t.toList) =
    [.ok [], .ok [], .ok ["24ABCD".toList, "24EF01".toList], .ok ["2424".toList, "24AB".toList]] := by decide
/-- V48. -/
theorem test_split_malformed : (["224", "24GG", "24AB 2"].map fun t => split t.toList) =
    [.malformedHex "2".toList, .malformedHex "GG".toList, .malformedHex "AB2".toList] := by decide

/-! ## Host software -/

/-- V86. -/
theorem test_protocolVersionLabel : said (exec (.protocolVersionLabel 0x13) State.reset) = some (.label "JT701D") ∧
    said (exec (.protocolVersionLabel 0x19) State.reset) = some (.label "JT701") := by decide
/-- V87. -/
theorem test_deviceTypeLabel :
    said (exec (.deviceTypeLabel 1) State.reset) = some (.label "Regular rechargeable JT701") ∧
    said (exec (.deviceTypeLabel 15) State.reset) = some (.label "Unknown") := by decide
/-- V88. -/
theorem test_dataTypeLabel : ([1, 2, 3, 4, 0, 5].map fun t => said (exec (.dataTypeLabel t) State.reset)) =
    [.positional, .alarm, .blindArea, .subNew, .unknown, .unknown].map fun l => some (.dataType l) := by decide
/-- S4, V80, V82. -/
theorem test_coordinateDegrees : ([22348310, 113550543, 999999].map fun r =>
    said (exec (.coordinateDegrees r) State.reset)) =
      [22580517, 113917572, 1666665].map fun n => some (.millionths n) := by decide
/-- V83. -/
theorem test_speedKmh : ([0, 1, 18, 255].map fun r => said (exec (.speedKmh r) State.reset)) =
    [0, 1850000, 33300000, 471750000].map fun n => some (.millionths n) := by decide
/-- V84. -/
theorem test_angleDegrees : ([0, 152, 180].map fun r => said (exec (.angleDegrees r) State.reset)) =
    [0, 304, 360].map fun n => some (.number n) := by decide
/-- V85. -/
theorem test_gsmSignalQualityLabel : ([0, 99, 255].map fun r => said (exec (.gsmSignalQualityLabel r) State.reset)) =
    [99, 99, 255].map fun n => some (.number n) := by decide
/-- V89: "180421". -/
theorem test_dateLabel : said (exec (.dateLabel [0x31, 0x38, 0x30, 0x34, 0x32, 0x31]) State.reset) =
    some (.date (.ok 18 4 21 (Config.dateText 18 4 21))) := by rfl
/-- U9: month 13. -/
theorem test_dateLabel_malformed : said (exec (.dateLabel [0x31, 0x38, 0x31, 0x33, 0x32, 0x31]) State.reset) =
    some (.date .malformed) := by rfl
/-- R223's example: for 'F' all four booleans are 1 under any assignment. -/
theorem test_directionIndicatorLabel : ∃ text,
    said (exec (.directionIndicatorLabel 0x46) State.reset) = some (.direction true true true true text) := by
  refine ⟨(Config.directionText (directionSense 0xF .fixValid) (directionSense 0xF .northSouth)
    (directionSense 0xF .eastWest) (directionSense 0xF .fixedValue)), ?_⟩
  have h : ∀ k : Fin 4, (0xF : Nibble).getLsbD k.val = true := by decide
  have hf : ∀ m, directionFlag 0xF m = true := fun m => h _
  have hn : directionNibble 0x46 = 0xF := by decide
  simp only [said, after, exec, execDirectionIndicatorLabel, directionLabel, State.answer, hn, hf, Option.bind_some]
/-- S9: the one bits of 0x20E0. -/
theorem test_deviceStatusLabels : ∃ flags,
    said (exec (.deviceStatusLabels 0x20E0) State.reset) = some (.statusFlags flags) ∧
      flags.map Prod.fst = [5, 6, 7, 13] := ⟨statusFlags 0x20E0, rfl, rfl⟩

/-! ## Witnesses: states and operands that meet the hypotheses of the statements -/

theorem wit_DecodeOfEncode : (Instr.data fieldsF []).wellFormed .hex8 = true ∧ encode (.data fieldsF []) = some frameF ∧
    (Instr.hbeat tidH [0, 0]).wellFormed .hex8 = true ∧ (encode (.hbeat tidH [0, 0])).isSome = true ∧
    (Instr.cmd [] true).wellFormed .hex8 = true ∧ encode (.cmd [] true) = some [0x28, 0x29] ∧
    (Instr.illegal 0x29).wellFormed .hex8 = true ∧ encode (.illegal 0x29) = some [0x29] := by decide
theorem wit_EncodeOfDecode : decode .hex8 [0x28, 0x29, 0x24] = .ok (.cmd [] true, [0x24]) := by decide
theorem wit_OtherMarkers : ∀ m ∈ [(0x00 : Byte), 0x23, 0x25, 0x27, 0x29, 0xFF], m ≠ 0x24 ∧ m ≠ 0x28 := by decide
theorem wit_DataFrameFields : frameF.head? = some 0x24 ∧ frameF.length = 62 ∧
    (frameF ++ [0x28]).head? = some 0x24 ∧ 62 ≤ (frameF ++ [0x28]).length := by decide
theorem wit_DigitStrings : allDigits [9, 0] ∧ ¬ allDigits [9, 10] := by unfold allDigits; decide
theorem wit_HexStrings : 1 < [(0x12 : Byte), 0x34].length := by decide

theorem wit_StepRuns :
    (running frameH 0).decoderMoves ∧ (running frameH 0).phase = .run ∧
    frameH.length = (running frameH 0).len - (running frameH 0).cur ∧
    (∀ k (h : k < frameH.length), Memory.read (running frameH 0).mem ((running frameH 0).cur + k) = some frameH[k]) ∧
    decode (running frameH 0).cfg.imeiMode frameH = .ok (.hbeat tidH [0x2C, 0x40], []) :=
  ⟨.inl rfl, rfl, rfl, by decide, by decide⟩
/-- The same with the decoder's turn written on the agenda. -/
theorem wit_StepRuns_agenda : ({ running frameH 0 with agenda := [.decoder] } : State).decoderMoves := .inr rfl
theorem wit_HostTurn : (State.issue State.reset .poll rfl).hostIssues .poll := ⟨_, rfl, rfl⟩
theorem wit_WalkFinishes :
    (running frameH 16).decoderMoves ∧ (running frameH 16).phase = .run ∧ (running frameH 16).cur = (running frameH 16).len ∧
    State.reset.decoderMoves ∧ State.reset.phase ≠ .run := ⟨.inl rfl, rfl, rfl, .inl rfl, by decide⟩
theorem wit_DoneIsReached : (running frameH 16).phase ≠ .done ∧
    ∃ t, step (running frameH 16) = .next t ∧ t.phase = .done := ⟨by decide, (running frameH 16).finish, rfl, rfl⟩
/-- A step for each way `PHASE` can move: `RESET`, `START`, a decoder step, and none. -/
theorem wit_PhaseMoves :
    ((after (step (State.issue (running frameH 0) .reset rfl))).map (·.phase) = some .idle) ∧
    ((after (step (State.issue (loadedWith frameH) .start rfl))).map (·.phase) = some .run) ∧
    ((after (step (State.issue State.reset .start rfl))).map (·.phase) = some .fail) ∧
    ((after (step (running frameH 16))).map (·.phase) = some .done) ∧
    ((after (step (running [0x00] 0))).map (·.phase) = some .fail) ∧
    ((after (step (running frameH 0))).map (·.phase) = some .run) := by decide
theorem wit_ResultsStay : doneF.phase = .done ∧ (after (step (State.issue doneF .poll rfl))).isSome = true ∧
    (after (step (State.issue doneF (.load frameH) rfl))).isSome = true ∧
    (after (step (State.issue doneF .start rfl))).isSome = true := by decide

theorem wit_Heartbeat : (frameH ++ [0x24]).head? = some 0x28 ∧ 16 ≤ (frameH ++ [0x24]).length ∧
    slice (frameH ++ [0x24]) 13 3 = [0x4A, 0x54, 0x29] := by decide
theorem wit_CommandFrame :
    isHeartbeat [0x28, 0x29] = false ∧ [(0x29 : Byte)][0]? = some 0x29 ∧
    (isHeartbeat [0x28, 0x41, 0x29, 0x29] = false ∧ [(0x41 : Byte), 0x29, 0x29][1]? = some 0x29 ∧
      ∀ k < 1, [(0x41 : Byte), 0x29, 0x29][k]? ≠ some 0x29) ∧
    isHeartbeat [0x28, 0x41] = false ∧ 0x29 ∉ [(0x41 : Byte)] := by decide
/-- The fields of `F`, with the greatest angle that passes. -/
theorem wit_LegalDataFrame :
    fieldsF.map List.length =
      [1, 5, 1, 1, 2, 3, 3, 4, 5, 1, 1, 4, 1, 4, 1, 1, 1, 4, 1, 1, 1, 1, 1, imeiBytes State.reset.cfg.imeiMode, 2, 2,
        1, 1] ∧
    (State.reset.cfg.utimeSrc = .dateTime12 → allDigits (nibbles ([0x18, 0x04, 0x21] ++ [0x16, 0x22, 0x59]))) ∧
    allDigits (nibbles [0x22, 0x34, 0x83, 0x10]) ∧
    allDigits ((nibbles [0x11, 0x35, 0x50, 0x54, 0x3F]).take 9) ∧ (180 : Byte).toNat ≤ 180 := by
  unfold allDigits; decide
/-- A frame for each cause, two with a second cause behind it, and one with none. -/
theorem wit_DataFrameFails :
    let causeOf := fun f => (failureCauses Config.standard f).find? (fun c => c.2)
    (Instr.data fieldsF []).wellFormed .hex8 = true ∧ causeOf fieldsF = none ∧
    (Instr.data (fieldsF.take 27) []).wellFormed .hex8 = true ∧
    causeOf (fieldsF.take 27) = some ((.incompleteField, 28), true) ∧
    (Instr.data ((fieldsF.set 10 [0xB5]).take 11) [0]).wellFormed .hex8 = true ∧
    causeOf ((fieldsF.set 10 [0xB5]).take 11) = some ((.fieldOutOfRange, 11), true) ∧
    causeOf (fieldsF.set 5 [0x1B, 0x04, 0x21]) = some ((.badDigit, 29), true) ∧
    causeOf ((fieldsF.set 7 [0x22, 0x3A, 0x83, 0x10]).set 10 [0xB5]) = some ((.badDigit, 8), true) ∧
    causeOf (fieldsF.set 8 [0x11, 0x35, 0x50, 0x54, 0xAF]) = some ((.badDigit, 9), true) := by decide
theorem wit_FramesLeave : (Instr.illegal 0).isHostOp = false ∧ (after (exec (.illegal 0) (running [0] 0))).isSome = true ∧
    (Instr.hbeat tidH [0, 0]).isHostOp = false ∧
    (after (exec (.hbeat tidH [0, 0]) (running frameH 0))).isSome = true := by decide
theorem wit_FailureEntry : (running [0x28] 0).decoderMoves ∧ (running [0x28] 0).phase = .run ∧
    ∃ t, step (running [0x28] 0) = .next t ∧ t.phase = .fail :=
  ⟨.inl rfl, rfl, next_of_after _ (by decide)⟩
theorem wit_FramesMove : (running frameH 0).Inv ∧ (running frameH 0).decoderMoves ∧ (running frameH 0).phase = .run ∧
    (running frameH 0).cur ≠ (running frameH 0).len ∧
    ∃ t, step (running frameH 0) = .next t ∧ t.phase ≠ .fail :=
  ⟨by decide, .inl rfl, rfl, by decide, next_of_after _ (by decide)⟩
/-- A second buffer with other bytes above `LEN`. -/
theorem wit_DecoderReads : (running frameH 0).decoderMoves ∧ (running frameH 0).cur ≤ (running frameH 0).len ∧
    (∀ a < (running frameH 0).len,
      Memory.read (Memory.write (running frameH 0).mem 16 0x24) a = Memory.read (running frameH 0).mem a) ∧
    ∃ t, step (running frameH 0) = .next t ∧ t.phase = .run :=
  ⟨.inl rfl, by decide, by decide, next_of_after _ (by decide)⟩

/-- The smallest capacity R8 allows. -/
def smallConfig : Config := { Config.standard with bufMax := 16, bufMax_ge := by decide }

/-- Reset under the smallest capacity. -/
def small : State := State.resetWith smallConfig [] none

/-- `LOAD` of nothing, of the whole capacity, of one byte more, and during `RUN`. -/
theorem wit_Load : small.phase ≠ .run ∧ ([] : List Byte).length ≤ small.cfg.bufMax ∧
    frameH.length = small.cfg.bufMax ∧ small.cfg.bufMax < (frameH ++ [0]).length ∧
    (running frameH 0).phase = .run := by decide
theorem wit_Start : (loadedWith frameH).phase ≠ .run ∧ 16 ≤ (loadedWith frameH).len ∧
    Memory.read (loadedWith frameH).mem 0 = some 0x28 ∧
    (loadedWith (frameH.take 15)).phase ≠ .run ∧ (loadedWith (frameH.take 15)).len < 16 ∧
    16 ≤ (loadedWith (0x25 :: frameH.drop 1)).len ∧
    Memory.read (loadedWith (0x25 :: frameH.drop 1)).mem 0 = some 0x25 ∧ (running frameH 0).phase = .run := by decide
/-- A machine after a failed decode, and one fresh from reset, with the same buffer. -/
theorem wit_StartLeavesNothing :
    let s := loadedWith frameH
    let s' := { s with phase := .fail, err := .badDigit, errField := 8, errPos := 3, cur := 3 }
    s.phase ≠ .run ∧ s'.phase ≠ .run ∧ s'.cfg = s.cfg ∧ s'.len = s.len ∧ s'.mem = s.mem ∧
      (after (exec .start s)).isSome = true := by decide
/-- A `POLL` at `DONE` and one at `FAIL`. -/
theorem wit_Poll : (State.issue doneF .poll rfl).phase = .done ∧
    (after (step (State.issue doneF .poll rfl))).isSome = true ∧
    (State.issue ((running frameH 0).raise (.badDigit, 8)) .poll rfl).phase = .fail ∧
    (after (step (State.issue ((running frameH 0).raise (.badDigit, 8)) .poll rfl))).isSome = true := by decide
theorem wit_ReadAtDone : doneF.phase = .done ∧ doneF.recs[0]? = some recordF := by decide
theorem wit_ReadOutsideDone : (running frameH 0).phase = .run ∧ State.reset.phase ≠ .run ∧ State.reset.phase ≠ .done ∧
    doneF.phase ≠ .run ∧ doneF.nrec ≤ 1 ∧ State.reset.phase = .idle := by decide
theorem wit_Ports : let i := Instr.chkAngle 180
    i.isHostOp = true ∧ i ≠ .reset ∧ (∀ bytes, i ≠ .load bytes) ∧ i ≠ .start ∧ i ≠ .poll ∧ ∀ name, i ≠ .read name := by
  simp [Instr.isHostOp]
/-- Bit 7 of each table; above it no event is left. -/
theorem wit_Events :
    ([HighByteLockEvent.LongTimeUnlocking, .WrongPassword, .Swipe, .LowBattery, .CoverOpen, .CoverClosed, .MotorStuck,
      .Reserved][(7 : Nat)]? = some .Reserved) ∧
    ([LowByteLockEvent.BaseStationPositioning, .EnterFence, .ExitFence, .RopeCut, .Vibration, .AckRequired,
      .RopeInserted, .MotorLocked][(7 : Nat)]? = some .MotorLocked) := by decide
theorem wit_EventLaws : HighByteLockEvent.Swipe ≠ .Reserved ∧ LowByteLockEvent.RopeCut ≠ .Vibration ∧
    evtNames .low 0x81 = evtNames .low 0x81 := by decide
/-- A piece without a "4" has no marker. -/
theorem noMarker_of_no4 {t : HexText} (h : '4' ∉ t) : ¬ hasMarker t := by
  rintro ⟨a, b, rfl⟩
  simp at h

/-- Pieces that are all well-formed, and a first malformed piece between two good ones. -/
theorem wit_SplitAnswers :
    let good : List HexText := [[], ['A', 'B', ' ', 'C', 'D'], [' ', 'E', 'F']]
    let bad : List HexText := [['A', 'B'], ['G', 'G'], ['C']]
    (good.intersperse ['2', '4']).flatten = "24AB CD24 EF".toList ∧ (∀ p ∈ good, ¬ hasMarker p) ∧
    hexWellFormed ['A', 'B', 'C', 'D'] ∧ hexWellFormed ['E', 'F'] ∧
    (∀ p ∈ bad, ¬ hasMarker p) ∧ bad = [['A', 'B']] ++ ['G', 'G'] :: [['C']] ∧ hexWellFormed ['A', 'B'] ∧
    ¬ hexWellFormed ['G', 'G'] ∧ ¬ hexWellFormed ['C'] := by
  refine ⟨by decide, fun p hp => noMarker_of_no4 (fun h4 => ?_), by simp [hexWellFormed], by simp [hexWellFormed],
    fun p hp => noMarker_of_no4 (fun h4 => ?_), by simp, by simp [hexWellFormed], by simp [hexWellFormed],
    by simp [hexWellFormed]⟩
  · rcases (by simpa using hp : p = [] ∨ p = ['A', 'B', ' ', 'C', 'D'] ∨ p = [' ', 'E', 'F']) with rfl | rfl | rfl <;>
      simp at h4
  · rcases (by simpa using hp : p = ['A', 'B'] ∨ p = ['G', 'G'] ∨ p = ['C']) with rfl | rfl | rfl <;> simp at h4
theorem wit_SplitterReturns :
    ∀ b ∈ [['A', 'B'], ['4', '2']], b ≠ [] ∧ hexWellFormed b ∧ ¬ hasMarker b := by
  intro b hb
  have hm : ∀ c d : Char, (c, d) ≠ ('2', '4') → ¬ hasMarker [c, d] := by
    rintro c d h ⟨x, y, hxy⟩
    match x, hxy with
    | [], hxy => simp at hxy; exact h (by simp [hxy.1, hxy.2.1])
    | [_], hxy => simp at hxy
    | _ :: _ :: _, hxy => simp at hxy
  rcases (by simpa using hb : b = ['A', 'B'] ∨ b = ['4', '2']) with rfl | rfl
  · exact ⟨by decide, by simp [hexWellFormed], hm _ _ (by decide)⟩
  · exact ⟨by decide, by simp [hexWellFormed], hm _ _ (by decide)⟩
/-- "281221" and "010121" are rendered; "001221", "321221", "280021" and "281321" fail: day and month at the bounds of
each clause. -/
theorem wit_DateLabel :
    (∀ d ∈ [(28 : Nat), 1], ∀ m ∈ [(12 : Nat), 1], 1 ≤ d ∧ d ≤ 28 ∧ 1 ≤ m ∧ m ≤ 12) ∧
    (∀ p ∈ [((0 : Nat), (12 : Nat)), (32, 12), (28, 0), (28, 13)], p.1 = 0 ∨ 31 < p.1 ∨ p.2 = 0 ∨ 12 < p.2) ∧
    [(0x32 : Byte), 0x38, 0x31, 0x32, 0x32, 0x31] =
      [BitVec.ofNat 8 (0x30 + 2), BitVec.ofNat 8 (0x30 + 8), BitVec.ofNat 8 (0x30 + 1), BitVec.ofNat 8 (0x30 + 2),
        BitVec.ofNat 8 (0x30 + 2), BitVec.ofNat 8 (0x30 + 1)] ∧ 28 = 10 * 2 + 8 ∧ 12 = 10 * 1 + 2 := by decide
/-- A state in the middle of a decode meets the invariant, and steps. -/
theorem wit_Invariant : (running frameH 0).Inv ∧ ∃ t, step (running frameH 0) = .next t ∧ t.cur = 16 :=
  ⟨by decide, next_of_after _ (by decide)⟩
/-- The three refusals. -/
theorem wit_Refusals :
    step (State.issue (running frameH 0) (.read .nrec) rfl) = .refused .readWhileRunning ∧
    step (State.issue doneF (.read (.record 1 .speed)) rfl) = .refused (.readPastRecords 1) ∧
    step (State.issue small (.load (frameH ++ [0])) rfl) = .refused (.loadLongerThanBuffer 17) := ⟨rfl, rfl, rfl⟩
theorem wit_EveryDecodeEnds : (running frameH 0).Inv ∧ (running frameH 0).agenda = [] ∧ (running frameH 0).phase = .run :=
  ⟨by decide, rfl, rfl⟩
theorem wit_LoadStart :
    let s := { State.reset with agenda := [.host ⟨.load frameH, rfl⟩, .host ⟨.start, rfl⟩] }
    s.phase ≠ .run ∧ frameH.length ≤ s.cfg.bufMax ∧ s.agenda = [.host ⟨.load frameH, rfl⟩, .host ⟨.start, rfl⟩] := by
  decide

end Sys2Proof.Tests
end

section
/-! SUPPORT. The rules of scope: hex text (R9, R10), `START` without memory of earlier decodes (R13), the refusals
(R16), the fixed configuration and the widths of the cursor registers (R8). -/

namespace Sys2Proof.Machine

/-! ## Hex text (R9, R10) -/

theorem highNibble_toNat (b : Byte) : (highNibble b).toNat = b.toNat / 16 := by
  have := b.isLt
  simp only [highNibble, BitVec.extractLsb'_toNat, Nat.shiftRight_eq_div_pow]
  omega

theorem lowNibble_toNat (b : Byte) : (lowNibble b).toNat = b.toNat % 16 := by
  simp [lowNibble]

theorem hexChar_toNat (d : Nibble) :
    (hexChar d).toNat = if d.toNat ≤ 9 then 0x30 + d.toNat else 0x41 + (d.toNat - 10) := by
  have := d.isLt
  unfold hexChar
  split <;> simp only [BitVec.toNat_ofNat] <;> omega

/-- Byte `k` of a sequence gives the nibbles `2k` and `2k + 1`, high nibble first. -/
theorem nibbles_getElem? (bs : List Byte) (k : Nat) (h : k < bs.length) :
    (nibbles bs)[2 * k]? = some (highNibble bs[k]) ∧ (nibbles bs)[2 * k + 1]? = some (lowNibble bs[k]) := by
  induction bs generalizing k with
  | nil => simp at h
  | cons b bs ih =>
    cases k with
    | zero => simp [nibbles]
    | succ k => simpa [nibbles, Nat.mul_succ] using ih k (by simpa using h)

/-! ## What `START` takes from the state before it (R100) -/

/-- What `START` does to a state that is not decoding, said forwards (`execStart_next` is the inversion). -/
theorem execStart_of_short {s : State} (hp : s.phase ≠ .run) (hl : s.len < minLen) :
    execStart s = .next (s.fresh.raise (.frameTooShort, 0)) := by
  rw [execStart, if_neg hp, if_pos hl]

theorem execStart_of_header {s : State} {b : Byte} (hp : s.phase ≠ .run) (hl : minLen ≤ s.len)
    (hb : Memory.read s.mem 0 = some b) (hm : b = markerData ∨ b = markerParen) :
    execStart s = .next (s.fresh.begin b) := by
  simp only [execStart, if_neg hp, if_neg (Nat.not_lt.2 hl), hb, if_pos hm]

theorem execStart_of_unrecognized {s : State} {b : Byte} (hp : s.phase ≠ .run) (hl : minLen ≤ s.len)
    (hb : Memory.read s.mem 0 = some b) (hm : ¬ (b = markerData ∨ b = markerParen)) :
    execStart s = .next (s.fresh.raise (.unrecognizedHeader, 1)) := by
  simp only [execStart, if_neg hp, if_neg (Nat.not_lt.2 hl), hb, if_neg hm]

section
variable {s s' : State} (hcfg : s'.cfg = s.cfg) (hlen : s'.len = s.len) (hmem : s'.mem = s.mem)
include hcfg hlen hmem

/-- A failure of `START` keeps nothing of the state but the configuration, the buffer and the host side. -/
theorem State.fresh_raise_congr (f : Failure) :
    s'.fresh.raise f = { s.fresh.raise f with agenda := s'.agenda, reply := s'.reply } := by
  simp [State.raise, State.fresh, hcfg, hlen, hmem]

/-- So does `START`'s entry to `RUN`. -/
theorem State.fresh_begin_congr (b : Byte) :
    s'.fresh.begin b = { s.fresh.begin b with agenda := s'.agenda, reply := s'.reply } := by
  simp [State.begin, State.fresh, hcfg, hlen, hmem]

end

/-! ## Refusals (R16, U15) -/

/-- A frame always has a meaning: its step goes on. -/
theorem exec_frame_next {i : Instr} (hi : i.isHostOp = false) (s : State) : ∃ t, exec i s = .next t := by
  cases i with
  | hbeat tid unnamed => exact ⟨_, rfl⟩
  | cmd body closed => cases closed <;> exact ⟨_, rfl⟩
  | data fields cut =>
    show ∃ t, execData fields cut s = .next t
    unfold execData
    split <;> exact ⟨_, rfl⟩
  | illegal marker => exact ⟨_, rfl⟩
  | _ => simp [Instr.isHostOp] at hi

theorem exec_frame_ne_refused {i : Instr} (hi : i.isHostOp = false) (s : State) (r : Refusal) :
    exec i s ≠ .refused r := by
  obtain ⟨t, ht⟩ := exec_frame_next hi s
  simp [ht]

/-- The decoder's turn is never refused. -/
theorem walk_ne_refused (s : State) (r : Refusal) : walk s ≠ .refused r := by
  intro h
  unfold walk at h
  split at h
  · split at h
    · simp at h
    · split at h
      · simp at h
      · next i hi =>
        obtain ⟨-, hframe, -⟩ := State.fetch_frame hi
        exact exec_frame_ne_refused hframe s r h
  · simp at h

theorem execLoad_refused {bytes : List Byte} {s : State} {r : Refusal} (h : execLoad bytes s = .refused r) :
    s.phase ≠ .run ∧ s.cfg.bufMax < bytes.length ∧ r = .loadLongerThanBuffer bytes.length := by
  unfold execLoad at h
  split at h
  · simp at h
  · next hp =>
    split at h
    · simp at h
    · next hl => exact ⟨hp, Nat.lt_of_not_le hl, by simpa using h.symm⟩

theorem execStart_ne_refused (s : State) (r : Refusal) : execStart s ≠ .refused r := by
  intro h
  unfold execStart at h
  split at h
  · simp at h
  · split at h
    · simp at h
    · split at h
      · simp at h
      · split at h <;> simp at h

/-- Only a record at or above the number of records has no value. -/
theorem readResult_eq_none {msg : Msg} {recs : List Record} {name : ReadName}
    (h : readResult msg recs name = none) : ∃ i f, name = .record i f ∧ recs.length ≤ i := by
  cases name with
  | record i f => exact ⟨i, f, rfl, by simpa [readResult] using h⟩
  | _ => simp [readResult] at h

/-- The read port has no value for a record outside `DONE`, and at `DONE` for one that is not in the store (R276). -/
theorem State.readView_eq_none {s : State} {name : ReadName} (h : s.readView name = none) :
    ∃ i f, name = .record i f ∧ (s.phase ≠ .done ∨ s.nrec ≤ i) := by
  unfold State.readView at h
  split at h
  · obtain ⟨i, f, hn, hi⟩ := readResult_eq_none h
    exact ⟨i, f, hn, .inr hi⟩
  · next hp =>
    obtain ⟨i, f, hn, -⟩ := readResult_eq_none h
    exact ⟨i, f, hn, .inl hp⟩

theorem execRead_refused {name : ReadName} {s : State} {r : Refusal} (h : execRead name s = .refused r) :
    s.phase = .run ∨ s.readView name = none := by
  unfold execRead at h
  split at h
  · next hp => exact .inl hp
  · split at h
    · simp at h
    · next hv => exact .inr hv

/-- The only instructions that are refused are `LOAD` and `READ`. -/
theorem exec_refused {i : Instr} {s : State} {r : Refusal} (h : exec i s = .refused r) :
    (∃ bytes, i = .load bytes ∧ execLoad bytes s = .refused r) ∨
    (∃ name, i = .read name ∧ execRead name s = .refused r) := by
  cases ha : Instr.onlyAnswers i with
  | true =>
    obtain ⟨a, he⟩ := exec_onlyAnswers ha s
    simp [he] at h
  | false =>
    cases i with
    | hbeat | cmd | data | illegal => exact absurd h (exec_frame_ne_refused rfl s r)
    | reset => simp [exec, execReset] at h
    | load bytes => exact .inl ⟨bytes, rfl, h⟩
    | start => exact absurd h (execStart_ne_refused s r)
    | read name => exact .inr ⟨name, rfl, h⟩
    | _ => simp [Instr.onlyAnswers] at ha

/-! ## The configuration (R8, R272) -/

/-- No instruction writes the configuration. -/
theorem exec_cfg {i : Instr} {s t : State} (h : exec i s = .next t) : t.cfg = s.cfg := by
  cases ha : Instr.onlyAnswers i with
  | true =>
    obtain ⟨a, he⟩ := exec_onlyAnswers ha s
    obtain rfl : s.answer a = t := by simpa [he] using h
    rfl
  | false =>
    cases i with
    | hbeat tid unnamed =>
      obtain rfl : (s.heartbeat (ascii tid)).advance hbLen = t := by simpa [exec, execHbeat] using h
      rfl
    | cmd body closed => obtain ⟨-, rfl⟩ | ⟨-, rfl⟩ := execCmd_next h <;> rfl
    | data fields cut => obtain ⟨e, -, rfl⟩ | ⟨st, -, rfl⟩ := execData_next (cut := cut) h <;> rfl
    | illegal marker =>
      obtain rfl : s.raise (.unrecognizedHeader, 1) = t := by simpa [exec, execIllegal] using h
      rfl
    | reset =>
      obtain rfl : s.hostReset = t := by simpa [exec, execReset] using h
      rfl
    | load bytes => obtain ⟨-, rfl⟩ | ⟨-, -, rfl⟩ := execLoad_next h <;> rfl
    | start =>
      obtain ⟨-, rfl⟩ | ⟨-, -, rfl⟩ | ⟨-, -, b, -, ⟨-, rfl⟩ | ⟨-, rfl⟩⟩ := execStart_next h <;> rfl
    | read name => obtain ⟨-, v, -, rfl⟩ := execRead_next h; rfl
    | _ => simp [Instr.onlyAnswers] at ha

theorem walk_cfg {s t : State} (h : walk s = .next t) : t.cfg = s.cfg := by
  obtain ⟨-, rfl⟩ | ⟨-, -, rfl⟩ | ⟨-, -, i, -, he⟩ := walk_next h
  · rfl
  · rfl
  · exact exec_cfg he

/-! ## The width of the cursor registers (R8) -/

/-- `CW` bits hold every number up to `BUF_MAX`. -/
theorem lt_two_pow_cursorWidth {c : Config} {n : Nat} (h : n ≤ c.bufMax) : n < 2 ^ c.cursorWidth :=
  Nat.lt_of_le_of_lt h Nat.lt_log2_self

end Sys2Proof.Machine
end

section
/-! SUPPORT. The obligations of scope. -/

open Sys2Proof Sys2Proof.Machine

/-- Settles O29: both runs take the same branch of `START`, since the tests read `LEN` and `BUF[0]` only, and the state
each branch answers keeps nothing else. -/
theorem startLeavesNothingOfEarlierDecodes : Obligations.StartLeavesNothingOfEarlierDecodes := by
  intro s s' t hp hp' hcfg hlen hmem h
  obtain ⟨hrun, -⟩ | ⟨-, hl, rfl⟩ | ⟨-, hl, b, hb, ⟨hm, rfl⟩ | ⟨hm, rfl⟩⟩ := execStart_next h
  · exact absurd hrun hp
  · rw [← State.fresh_raise_congr hcfg hlen hmem]
    exact execStart_of_short hp' (hlen ▸ hl)
  · rw [← State.fresh_begin_congr hcfg hlen hmem]
    exact execStart_of_header hp' (hlen ▸ hl) (hmem ▸ hb) hm
  · rw [← State.fresh_raise_congr hcfg hlen hmem]
    exact execStart_of_unrecognized hp' (hlen ▸ hl) (hmem ▸ hb) hm

/-- Settles O54: the decoder's turn is never refused, and of the host's operations only `LOAD` and `READ` are. -/
theorem onlyTheSpecsOwnRefusals : Obligations.OnlyTheSpecsOwnRefusals := by
  intro s r h
  obtain hd | ⟨i, hi, -⟩ := turn_cases s
  · exact absurd (step_decoder hd ▸ h) (walk_ne_refused s.popTurn r)
  · rw [step_host hi] at h
    obtain ⟨bytes, rfl, hload⟩ | ⟨name, rfl, hread⟩ := exec_refused h
    · obtain ⟨hp, hlong, -⟩ := execLoad_refused hload
      exact .inl ⟨bytes, hi, hp, hlong⟩
    · exact .inr ⟨name, hi, (execRead_refused hread).imp_right State.readView_eq_none⟩

/-- Settles O55, by whose turn it is. -/
theorem configurationIsFixed : Obligations.ConfigurationIsFixed := by
  intro s t h
  obtain hd | ⟨i, hi, -⟩ := turn_cases s
  · rw [step_decoder hd] at h
    exact (walk_cfg h).trans s.popTurn_cfg
  · rw [step_host hi] at h
    exact (exec_cfg h).trans s.popTurn_cfg

/-- Settles O56, from the invariant's bounds by `BUF_MAX` and `REC_MAX`. -/
theorem cursorRegistersFitTheirWidth : Obligations.CursorRegistersFitTheirWidth := by
  rintro s ⟨⟨-, -, hlen, -⟩, ⟨hcur, herrPos, -⟩, -, -, hnrec, -⟩
  exact ⟨lt_two_pow_cursorWidth hcur, lt_two_pow_cursorWidth hlen,
    lt_two_pow_cursorWidth herrPos, hnrec⟩

/-- Settles O9: `HEXSTR` maps `HEXCHAR` over the nibbles, so its characters are found by the nibbles' places. -/
theorem hexStringsSpellTheirBytes : Obligations.HexStringsSpellTheirBytes := by
  refine ⟨fun bs => ⟨hexStr_length bs, fun k hk => ?_⟩, fun b => ⟨highNibble_toNat b, lowNibble_toNat b⟩,
    hexChar_toNat⟩
  obtain ⟨hhigh, hlow⟩ := nibbles_getElem? bs k hk
  simp [hexStr, hhigh, hlow]

end

section
/-! SUPPORT. The rules of the state: what a frame and a host operation can answer a next state by, what each does to
`PHASE` (R21) and to the results (R49), and that each keeps the invariant. -/

namespace Sys2Proof.Machine

/-! ## What an instruction answers a next state by -/

/-- A frame is consumed, or it raises one of the kinds JTFP raises (R103 to R106, R240). -/
theorem exec_frame_cases {i : Instr} {s t : State} (hi : i.isHostOp = false) (h : exec i s = .next t) :
    (∃ tid unnamed, i = .hbeat tid unnamed ∧ t = (s.heartbeat tid).advance hbLen) ∨
    (∃ body, i = .cmd body true ∧ t = s.advance (body.length + 2)) ∨
    (∃ fields cut st, i = .data fields cut ∧ dataFrame s.cfg fields = .ok st ∧
      t = (s.commit st).advance (dataLen s.cfg.imeiMode)) ∨
    (∃ e : Failure, e.1 ≠ .noError ∧ e.1 ≠ .malformedHex ∧ t = s.raise e) := by
  cases i with
  | hbeat tid unnamed => exact .inl ⟨tid, unnamed, rfl, by simpa [exec, execHbeat, ascii] using h.symm⟩
  | cmd body closed =>
    obtain ⟨rfl, rfl⟩ | ⟨-, rfl⟩ := execCmd_next h
    · exact .inr (.inl ⟨body, rfl, rfl⟩)
    · exact .inr (.inr (.inr ⟨(.incompleteField, 30), by decide, by decide, rfl⟩))
  | data fields cut =>
    obtain ⟨e, he, rfl⟩ | ⟨st, hst, rfl⟩ := execData_next (cut := cut) h
    · refine .inr (.inr (.inr ⟨e, ?_, ?_, rfl⟩)) <;>
        rcases dataFrame_error_kind he with hk | hk | hk <;> simp [hk]
    · exact .inr (.inr (.inl ⟨fields, cut, st, rfl, hst, rfl⟩))
  | illegal marker =>
    exact .inr (.inr (.inr ⟨(.unrecognizedHeader, 1), by decide, by decide,
      by simpa [exec, execIllegal] using h.symm⟩))
  | _ => simp [Instr.isHostOp] at hi

/-- A host operation only answers, or it is one of the three that write registers of JTFP (R270, R273, R100). -/
theorem exec_hostOp_cases {i : Instr} {s t : State} (hi : i.isHostOp = true) (h : exec i s = .next t) :
    (∃ r, t = s.answer r) ∨ (i = .reset ∧ t = s.hostReset) ∨
    (∃ bytes, i = .load bytes ∧ execLoad bytes s = .next t) ∨ (i = .start ∧ execStart s = .next t) := by
  cases ha : Instr.onlyAnswers i with
  | true =>
    obtain ⟨r, hr⟩ := exec_onlyAnswers ha s
    exact .inl ⟨r, by simpa [hr] using h.symm⟩
  | false =>
    cases i with
    | reset => exact .inr (.inl ⟨rfl, by simpa [exec, execReset] using h.symm⟩)
    | load bytes => exact .inr (.inr (.inl ⟨bytes, rfl, h⟩))
    | start => exact .inr (.inr (.inr ⟨rfl, h⟩))
    | read name =>
      obtain ⟨-, v, -, rfl⟩ := execRead_next h
      exact .inl ⟨_, rfl⟩
    | hbeat | cmd | data | illegal => simp [Instr.isHostOp] at hi
    | _ => simp [Instr.onlyAnswers] at ha

/-! ## `PHASE` (R21) -/

/-- A frame leaves `PHASE` or fails. -/
theorem exec_frame_phase {i : Instr} {s t : State} (hi : i.isHostOp = false) (h : exec i s = .next t) :
    t.phase = s.phase ∨ t.phase = .fail := by
  obtain ⟨tid, _, -, rfl⟩ | ⟨body, -, rfl⟩ | ⟨_, _, st, -, -, rfl⟩ | ⟨e, -, -, rfl⟩ := exec_frame_cases hi h
  · exact .inl rfl
  · exact .inl rfl
  · exact .inl rfl
  · exact .inr rfl

/-- The decoder leaves `PHASE`, or moves it from `RUN` to `DONE` or `FAIL`. -/
theorem walk_phase {s t : State} (h : walk s = .next t) :
    t.phase = s.phase ∨ (s.phase = .run ∧ (t.phase = .done ∨ t.phase = .fail)) := by
  obtain ⟨-, rfl⟩ | ⟨hrun, -, rfl⟩ | ⟨hrun, -, i, hi, he⟩ := walk_next h
  · exact .inl rfl
  · exact .inr ⟨hrun, .inl rfl⟩
  · obtain ⟨-, hframe, -⟩ := State.fetch_frame hi
    exact (exec_frame_phase hframe he).imp_right fun hfail => ⟨hrun, .inr hfail⟩

/-- `START` is ignored during `RUN`, and in every other phase goes to `RUN` or `FAIL`. -/
theorem execStart_phase {s t : State} (h : execStart s = .next t) :
    t.phase = s.phase ∨ (s.phase ≠ .run ∧ (t.phase = .run ∨ t.phase = .fail)) := by
  obtain ⟨-, rfl⟩ | ⟨hp, -, rfl⟩ | ⟨hp, -, b, -, ⟨-, rfl⟩ | ⟨-, rfl⟩⟩ := execStart_next h
  · exact .inl rfl
  · exact .inr ⟨hp, .inr rfl⟩
  · exact .inr ⟨hp, .inl rfl⟩
  · exact .inr ⟨hp, .inr rfl⟩

/-! ## `LOAD` and the results (R49) -/

/-- `LOAD` leaves `PHASE` and the results as they are. -/
theorem execLoad_results {bytes : List Byte} {s t : State} (h : execLoad bytes s = .next t) :
    t.phase = s.phase ∧ t.msg = s.msg ∧ t.recs = s.recs := by
  obtain ⟨-, rfl⟩ | ⟨-, -, rfl⟩ := execLoad_next h <;> exact ⟨rfl, rfl, rfl⟩

/-! ## The invariant at reset -/

theorem Msg.reset_sized (mode : ImeiMode) : (Msg.reset mode).sized mode := by
  simp [Msg.sized, Msg.reset]

/-- The reset state meets the invariant under every configuration, and whatever the host side holds. -/
theorem State.resetWith_inv (cfg : Config) (agenda : List Turn) (reply : Option Reply) :
    (State.resetWith cfg agenda reply).Inv := by
  have hsized := Msg.reset_sized cfg.imeiMode
  refine ⟨⟨List.Pairwise.nil, ?_, ?_, ?_⟩, ⟨?_, ?_, ?_⟩, ⟨?_, ?_⟩, ⟨hsized, ?_, ?_, ?_⟩, ⟨?_, ?_⟩⟩ <;>
    simp [State.resetWith, State.nrec]

/-! ## Every operation keeps the invariant -/

section
variable {s t : State}

theorem State.Inv.len_le (h : s.Inv) : s.len ≤ s.cfg.bufMax := by
  obtain ⟨⟨-, -, hlen, -⟩, -⟩ := h
  exact hlen

/-- No clause speaks of the agenda. -/
theorem State.Inv.popTurn (h : s.Inv) : s.popTurn.Inv := h

/-- No clause speaks of the host's last answer. -/
theorem State.Inv.answer (h : s.Inv) (r : Reply) : (s.answer r).Inv := h

/-- The bytes `LOAD` stores are within the capacity, and every address below the new `LEN` is one of theirs (R273). -/
theorem State.bufferOk.loaded (h : s.bufferOk) {bytes : List Byte} (hl : bytes.length ≤ s.cfg.bufMax) :
    (s.loaded bytes).bufferOk := by
  obtain ⟨hwf, hcap, -, -⟩ := h
  refine ⟨Memory.wf_writeBytes hwf 0 bytes, fun c hc => ?_, hl, fun a ha => ?_⟩
  · obtain ⟨-, hnew⟩ | hold := Memory.mem_writeBytes hc
    · exact Nat.lt_of_lt_of_le (by simpa using hnew) hl
    · exact hcap c hold
  · have hread := Memory.read_writeBytes_inside s.mem 0 bytes (i := a) ha
    rw [Nat.zero_add] at hread
    simp [hread]

theorem State.Inv.loaded (h : s.Inv) (hp : s.phase ≠ .run) {bytes : List Byte} (hl : bytes.length ≤ s.cfg.bufMax) :
    (s.loaded bytes).Inv := by
  obtain ⟨hbuf, ⟨hcur, hpos, -⟩, herr, hres, hstore⟩ := h
  exact ⟨hbuf.loaded hl, ⟨hcur, hpos, fun hrun => absurd hrun hp⟩, herr, hres, hstore⟩

/-- Failure entry needs only the buffer and the cursor in order: it writes everything else (R246). -/
theorem State.raise_inv (hbuf : s.bufferOk) (hcur : s.cur ≤ s.cfg.bufMax) {e : Failure} (hno : e.1 ≠ .noError)
    (hhex : e.1 ≠ .malformedHex) : (s.raise e).Inv := by
  have hsized := Msg.reset_sized s.cfg.imeiMode
  refine ⟨hbuf, ⟨hcur, hcur, ?_⟩, ⟨?_, fun _ => ⟨hno, hhex⟩⟩, ⟨hsized, ?_, ?_, ?_⟩, ⟨?_, ?_⟩⟩ <;> simp [State.nrec]

/-- `START`'s entry to `RUN` needs only the buffer in order and the two tests passed (R100). -/
theorem State.fresh_begin_inv (hbuf : s.bufferOk) (hlen : minLen ≤ s.len) {b : Byte}
    (hb : b = markerData ∨ b = markerParen) : (s.fresh.begin b).Inv := by
  have hsized := Msg.reset_sized s.cfg.imeiMode
  refine ⟨hbuf, ⟨?_, ?_, fun _ => ⟨?_, hlen⟩⟩, ⟨?_, ?_⟩, ⟨hsized, ?_, ?_, fun _ => hb⟩, ⟨?_, ?_⟩⟩ <;> simp [State.nrec]

/-- The walk's end drops the clauses about `RUN` and asks for nothing new (R108). -/
theorem State.Inv.finish (h : s.Inv) (hrun : s.phase = .run) : s.finish.Inv := by
  obtain ⟨hbuf, ⟨hcur, hpos, -⟩, ⟨herr, -⟩, ⟨hsized, hlegal, -, hheader⟩, hcount, -⟩ := h
  refine ⟨hbuf, ⟨hcur, hpos, ?_⟩, ⟨fun _ => herr (by simp [hrun]), ?_⟩,
    ⟨hsized, hlegal, ?_, fun _ => hheader (.inl hrun)⟩, hcount, ?_⟩ <;> simp

/-- The cursor may move within the loaded bytes. -/
theorem State.Inv.advance (h : s.Inv) {n : Nat} (hn : s.cur + n ≤ s.len) : (s.advance n).Inv := by
  have hlen := h.len_le
  obtain ⟨hbuf, ⟨-, hpos, hcurRun⟩, herr, hres, hcount, hused⟩ := h
  exact ⟨hbuf, ⟨hn.trans hlen, hpos, fun hrun => ⟨hn, (hcurRun hrun).2⟩⟩, herr, hres, hcount,
    fun hrun => (hused hrun).trans (Nat.le_add_right _ _)⟩

/-- A heartbeat's identifier has the register's length (R27, R103). -/
theorem State.Inv.heartbeat (h : s.Inv) (hrun : s.phase = .run) {tid : Chars} (htid : tid.length = 10) :
    (s.heartbeat tid).Inv := by
  obtain ⟨hbuf, hcur, herr, ⟨⟨himei, -, hbind⟩, hlegal, -, hheader⟩, hstore⟩ := h
  exact ⟨hbuf, hcur, herr, ⟨⟨himei, htid, hbind⟩, hlegal, by simp [hrun], hheader⟩, hstore⟩

/-- Records that each have consumed `DATA_LEN` of the loaded bytes are at most `REC_MAX` (R31). -/
theorem le_recMax {c : Config} {k n : Nat} (hk : k * dataLen c.imeiMode ≤ n) (hn : n ≤ c.bufMax) : k ≤ recMax c := by
  have hpos : 0 < dataLen c.imeiMode := Nat.lt_of_lt_of_le (by decide) (dataLen_ge c.imeiMode)
  exact (Nat.le_div_iff_mul_le hpos).2 (hk.trans hn)

/-- A data frame's commit: its record is paid for by the bytes the cursor moves over (R155, R31). -/
theorem State.Inv.commit_advance (h : s.Inv) (hrun : s.phase = .run) {st : Staged} (hlegal : st.record.legal)
    (hheader : st.protocolHeader = markerData) (himei : st.imei.length = imeiChars s.cfg.imeiMode)
    (htid : st.terminalId.length = 10) (hbind : st.bindVehicleId.length = 8)
    (hn : s.cur + dataLen s.cfg.imeiMode ≤ s.len) : ((s.commit st).advance (dataLen s.cfg.imeiMode)).Inv := by
  have hlen := h.len_le
  obtain ⟨hbuf, ⟨-, hpos, hcurRun⟩, herr, ⟨-, hrecs, -, -⟩, -, hused⟩ := h
  have hused' : (s.nrec + 1) * dataLen s.cfg.imeiMode ≤ s.cur + dataLen s.cfg.imeiMode := by
    rw [Nat.succ_mul]
    exact Nat.add_le_add_right (hused hrun) _
  have hnrec : ((s.commit st).advance (dataLen s.cfg.imeiMode)).nrec = s.nrec + 1 := s.commit_nrec st
  refine ⟨hbuf, ⟨hn.trans hlen, hpos, fun _ => ⟨hn, (hcurRun hrun).2⟩⟩, herr,
    ⟨⟨himei, htid, hbind⟩, fun r hr => ?_, by simp [hrun], fun _ => .inl hheader⟩, ?_, fun _ => ?_⟩
  · obtain hr | rfl : r ∈ s.recs ∨ r = st.record := by simpa using hr
    · exact hrecs r hr
    · exact hlegal
  · rw [hnrec]
    exact le_recMax hused' (hn.trans hlen)
  · rw [hnrec]
    exact hused'

/-! ## Every turn keeps the invariant -/

/-- The frame the decoder fetches lies within the loaded bytes, so consuming it keeps the invariant, and so does
failure entry. -/
theorem State.Inv.exec_fetched (h : s.Inv) (hrun : s.phase = .run) {i : Instr} (hi : s.fetch = .ok i)
    (he : exec i s = .next t) : t.Inv := by
  obtain ⟨hwf, hframe, own, henc, hown⟩ := State.fetch_frame hi
  have ⟨hbuf, ⟨hcur, _, hcurRun⟩, _⟩ := h
  have hfits : s.cur + own.length ≤ s.len := by
    have := (hcurRun hrun).1
    omega
  obtain ⟨tid, unnamed, rfl, rfl⟩ | ⟨body, rfl, rfl⟩ | ⟨fields, cut, st, rfl, hst, rfl⟩ | ⟨e, hno, hhex, rfl⟩ :=
    exec_frame_cases hframe he
  · obtain ⟨htid, hunnamed⟩ : tid.length = 10 ∧ unnamed.length = 2 := by simpa [Instr.wellFormed] using hwf
    have hlen : own.length = hbLen := by
      simp [← Option.some.inj henc, htid, hunnamed, trailer, hbLen]
    exact (h.heartbeat hrun htid).advance (hlen ▸ hfits)
  · have hlen : own.length = body.length + 2 := by simp [← Option.some.inj henc]
    exact h.advance (hlen ▸ hfits)
  · obtain ⟨hlegal, hheader, himei, htid, hbind, hflat⟩ := dataFrame_ok hwf hst
    have hlen : dataLen s.cfg.imeiMode ≤ own.length := by
      rw [← Option.some.inj henc, List.length_append, hflat]
      exact Nat.le_add_right _ _
    exact h.commit_advance hrun hlegal hheader himei htid hbind (by omega)
  · exact State.raise_inv hbuf hcur hno hhex

theorem State.Inv.walk (h : s.Inv) (hw : walk s = .next t) : t.Inv := by
  obtain ⟨-, rfl⟩ | ⟨hrun, -, rfl⟩ | ⟨hrun, -, i, hi, he⟩ := walk_next hw
  · exact h
  · exact h.finish hrun
  · exact h.exec_fetched hrun hi he

theorem State.Inv.execStart (h : s.Inv) (hs : execStart s = .next t) : t.Inv := by
  have ⟨hbuf, _⟩ := h
  obtain ⟨-, rfl⟩ | ⟨-, -, rfl⟩ | ⟨-, hlen, b, -, ⟨hb, rfl⟩ | ⟨-, rfl⟩⟩ := execStart_next hs
  · exact h
  · exact State.raise_inv (s := s.fresh) hbuf (Nat.zero_le _) (by decide) (by decide)
  · exact State.fresh_begin_inv hbuf hlen hb
  · exact State.raise_inv (s := s.fresh) hbuf (Nat.zero_le _) (by decide) (by decide)

theorem State.Inv.exec_hostOp (h : s.Inv) {i : Instr} (hi : i.isHostOp = true) (he : exec i s = .next t) : t.Inv := by
  obtain ⟨r, rfl⟩ | ⟨-, rfl⟩ | ⟨bytes, -, hload⟩ | ⟨-, hstart⟩ := exec_hostOp_cases hi he
  · exact h.answer r
  · exact State.resetWith_inv s.cfg s.agenda s.reply
  · obtain ⟨-, rfl⟩ | ⟨hp, hl, rfl⟩ := execLoad_next hload
    · exact h
    · exact h.loaded hp hl
  · exact h.execStart hstart

end

end Sys2Proof.Machine
end

section
/-! SUPPORT. The obligations of the state. -/

open Sys2Proof Sys2Proof.Machine

/-- Settles O52, by whose turn it is: each operation a turn comes down to keeps the invariant. -/
theorem everyStepKeepsTheInvariant : Obligations.EveryStepKeepsTheInvariant := by
  intro s t hinv h
  obtain hd | ⟨i, hi, hop⟩ := turn_cases s
  · rw [step_decoder hd] at h
    exact hinv.popTurn.walk h
  · rw [step_host hi] at h
    exact hinv.popTurn.exec_hostOp hop h

/-- Settles O14: the decoder moves `PHASE` at `RUN` only, and of the host's operations only `RESET` and `START` do. -/
theorem phaseMovesOnlyAsListed : Obligations.PhaseMovesOnlyAsListed := by
  intro s t h
  obtain hd | ⟨i, hi, hop⟩ := turn_cases s
  · rw [step_decoder hd] at h
    exact (walk_phase h).imp_right fun hmove => .inr (.inr ⟨hd, hmove⟩)
  · rw [step_host hi] at h
    obtain ⟨r, rfl⟩ | ⟨rfl, rfl⟩ | ⟨bytes, rfl, hload⟩ | ⟨rfl, hstart⟩ := exec_hostOp_cases hop h
    · exact .inl rfl
    · exact .inr (.inl ⟨hi, rfl⟩)
    · exact .inl (execLoad_results hload).1
    · exact (execStart_phase hstart).imp_right fun hmove => .inr (.inl ⟨hi, hmove⟩)

/-- Settles O15: at `DONE` the decoder rests, and the host's other operations write no result. -/
theorem resultsStayUntilStartOrReset : Obligations.ResultsStayUntilStartOrReset := by
  intro s t h hdone
  obtain hd | ⟨i, hi, hop⟩ := turn_cases s
  · rw [step_decoder hd] at h
    obtain ⟨-, rfl⟩ | ⟨hrun, -⟩ | ⟨hrun, -⟩ := walk_next h
    · exact .inl ⟨hdone, rfl, rfl⟩
    · simp [hdone] at hrun
    · simp [hdone] at hrun
  · rw [step_host hi] at h
    obtain ⟨r, rfl⟩ | ⟨rfl, -⟩ | ⟨bytes, rfl, hload⟩ | ⟨rfl, -⟩ := exec_hostOp_cases hop h
    · exact .inl ⟨hdone, rfl, rfl⟩
    · exact .inr (.inr hi)
    · obtain ⟨hphase, hmsg, hrecs⟩ := execLoad_results hload
      exact .inl ⟨hphase.trans hdone, hmsg, hrecs⟩
    · exact .inr (.inl hi)

/-- Settles O50: each register's value is what `State.resetWith` writes under the standard configuration. -/
theorem resetValues : Obligations.ResetValues :=
  ⟨rfl, rfl, rfl, rfl, rfl, rfl, rfl, rfl, rfl, rfl, rfl, rfl, rfl, rfl, rfl⟩

/-- Settles O51, as the case of the standard configuration and an empty host side. -/
theorem resetMeetsTheInvariant : Obligations.ResetMeetsTheInvariant :=
  State.resetWith_inv Config.standard [] none

end

section
/-! SUPPORT. The rules of memory: what the decoder's turn does, said forwards, when it and the host's turn can fault
(R50), what a frame leaves alone (R52), and that the decoder sees no byte at or above `LEN` (R63). -/

namespace Sys2Proof.Machine

/-! ## The decoder's turn, said forwards (`walk_next` is the inversion) -/

section
variable {s : State}

theorem walk_of_not_run (hp : s.phase ≠ .run) : walk s = .next s := by
  rw [walk, if_neg hp]

theorem walk_at_end (hp : s.phase = .run) (hc : s.cur = s.len) : walk s = .next s.finish := by
  rw [walk, if_pos hp, if_pos hc]

theorem walk_of_fetch {i : Instr} (hp : s.phase = .run) (hc : s.cur ≠ s.len) (hi : s.fetch = .ok i) :
    walk s = exec i s := by
  simp only [walk, if_pos hp, if_neg hc, hi]

end

/-! ## No fault from the invariant (R50, R63) -/

/-- The decoder reads an instruction from every byte sequence but the empty one. -/
theorem decode_of_ne_nil (mode : ImeiMode) {bytes : List Byte} (h : bytes ≠ []) :
    ∃ r, decode mode bytes = .ok r := by
  obtain ⟨m, bs, rfl⟩ := List.exists_cons_of_ne_nil h
  simp only [decode]
  cases classify m bs <;> exact ⟨_, rfl⟩

/-- Below `LEN`, where every address holds a value, the decoder always finds an instruction. -/
theorem State.fetch_of_readable {s : State} (h : ∀ a < s.len, (Memory.read s.mem a).isSome = true)
    (hc : s.cur < s.len) : ∃ i, s.fetch = .ok i := by
  obtain ⟨bytes, hw, hl⟩ := State.window_of_readable h
  have hne : bytes ≠ [] := List.ne_nil_of_length_pos (by omega)
  obtain ⟨r, hr⟩ := decode_of_ne_nil s.cfg.imeiMode hne
  exact ⟨r.1, by simp only [State.fetch, hw, hr]⟩

/-- The decoder's turn goes on: it rests, it finishes, or a frame stands at the cursor, and a frame always has a next
state. -/
theorem State.Inv.walk_goes_on {s : State} (h : s.Inv) : ∃ t, Machine.walk s = .next t := by
  obtain ⟨⟨-, -, -, hread⟩, ⟨-, -, hcurRun⟩, -⟩ := h
  by_cases hp : s.phase = .run
  · by_cases hc : s.cur = s.len
    · exact ⟨_, walk_at_end hp hc⟩
    · obtain ⟨i, hi⟩ := State.fetch_of_readable hread (Nat.lt_of_le_of_ne (hcurRun hp).1 hc)
      obtain ⟨-, hframe, -⟩ := State.fetch_frame hi
      rw [walk_of_fetch hp hc hi]
      exact exec_frame_next hframe s
  · exact ⟨s, walk_of_not_run hp⟩

/-- `START` faults only when the size test passes and `BUF[0]` holds no value (R100). -/
theorem execStart_fault {s : State} {f : Fault} (h : execStart s = .fault f) :
    minLen ≤ s.len ∧ Memory.read s.mem 0 = none := by
  unfold execStart at h
  split at h
  · simp at h
  · split at h
    · simp at h
    · next hl =>
      split at h
      · next hb => exact ⟨Nat.le_of_not_lt hl, hb⟩
      · split at h <;> simp at h

theorem exec_frame_ne_fault {i : Instr} (hi : i.isHostOp = false) (s : State) (f : Fault) :
    exec i s ≠ .fault f := by
  obtain ⟨t, ht⟩ := exec_frame_next hi s
  simp [ht]

theorem execLoad_ne_fault (bytes : List Byte) (s : State) (f : Fault) : execLoad bytes s ≠ .fault f := by
  intro h
  unfold execLoad at h
  split at h
  · simp at h
  · split at h <;> simp at h

theorem execRead_ne_fault (name : ReadName) (s : State) (f : Fault) : execRead name s ≠ .fault f := by
  intro h
  unfold execRead at h
  split at h
  · simp at h
  · split at h <;> simp at h

/-- Only where `START` faults does an instruction fault: the others always answer, or are refused. -/
theorem exec_fault {i : Instr} {s : State} {f : Fault} (h : exec i s = .fault f) : execStart s = .fault f := by
  cases ha : Instr.onlyAnswers i with
  | true =>
    obtain ⟨a, he⟩ := exec_onlyAnswers ha s
    simp [he] at h
  | false =>
    cases i with
    | hbeat | cmd | data | illegal => exact absurd h (exec_frame_ne_fault rfl s f)
    | reset => simp [exec, execReset] at h
    | load bytes => exact absurd h (execLoad_ne_fault bytes s f)
    | start => exact h
    | read name => exact absurd h (execRead_ne_fault name s f)
    | _ => simp [Instr.onlyAnswers] at ha

/-- From the invariant no instruction faults: below `LEN` every address holds a value, address 0 among them. -/
theorem State.Inv.exec_ne_fault {s : State} (h : s.Inv) (i : Instr) (f : Fault) : exec i s ≠ .fault f := by
  intro hf
  obtain ⟨hl, hnone⟩ := execStart_fault (exec_fault hf)
  obtain ⟨⟨-, -, -, hread⟩, -⟩ := h
  have hsome := hread 0 (Nat.lt_of_lt_of_le (by decide) hl)
  simp [hnone] at hsome

theorem noFault_of_ne_fault {a : Answer} (h : ∀ f, a ≠ .fault f) : noFault a := by
  cases a with
  | fault f => exact h f rfl
  | next _ | refused _ => trivial

/-! ## What a frame leaves alone (R52, R101) -/

/-- A frame writes registers only: nothing of the buffer, and nothing of the host side. -/
theorem exec_frame_keeps {i : Instr} {s t : State} (hi : i.isHostOp = false) (h : exec i s = .next t) :
    t.mem = s.mem ∧ t.len = s.len ∧ t.cfg = s.cfg ∧ t.agenda = s.agenda ∧ t.reply = s.reply := by
  obtain ⟨tid, _, -, rfl⟩ | ⟨body, -, rfl⟩ | ⟨_, _, st, -, -, rfl⟩ | ⟨e, -, -, rfl⟩ := exec_frame_cases hi h <;>
    exact ⟨rfl, rfl, rfl, rfl, rfl⟩

theorem walk_mem {s t : State} (h : walk s = .next t) : t.mem = s.mem := by
  obtain ⟨-, rfl⟩ | ⟨-, -, rfl⟩ | ⟨-, -, i, hi, he⟩ := walk_next h
  · rfl
  · rfl
  · obtain ⟨-, hframe, -⟩ := State.fetch_frame hi
    exact (exec_frame_keeps hframe he).1

/-! ## Two buffers that agree below `LEN` (R63) -/

/-- `MemRead` depends on the bytes it names only. -/
theorem Memory.readBytes_congr {m m' : Memory} {a n : Nat}
    (h : ∀ k < n, Memory.read m' (a + k) = Memory.read m (a + k)) :
    Memory.readBytes m' a n = Memory.readBytes m a n := by
  induction n generalizing a with
  | zero => rfl
  | succ n ih =>
    have hfirst : Memory.read m' a = Memory.read m a := h 0 (Nat.zero_lt_succ n)
    have hrest : Memory.readBytes m' (a + 1) n = Memory.readBytes m (a + 1) n := ih fun k hk => by
      rw [Nat.add_assoc, Nat.add_comm 1 k]
      exact h (k + 1) (Nat.succ_lt_succ hk)
    rw [Memory.readBytes, Memory.readBytes, hfirst, hrest]

/-- A frame's meaning reads its operands, never the buffer. -/
theorem exec_frame_withMem {i : Instr} {s t : State} (hi : i.isHostOp = false) (h : exec i s = .next t)
    (other : Memory) : exec i { s with mem := other } = .next { t with mem := other } := by
  cases i with
  | hbeat tid unnamed =>
    obtain rfl : (s.heartbeat (ascii tid)).advance hbLen = t := by simpa [exec, execHbeat] using h
    rfl
  | cmd body closed => obtain ⟨rfl, rfl⟩ | ⟨rfl, rfl⟩ := execCmd_next h <;> rfl
  | data fields cut =>
    show execData fields cut { s with mem := other } = _
    obtain ⟨e, he, rfl⟩ | ⟨st, hst, rfl⟩ := execData_next (cut := cut) h
    · simp only [execData, he]
      rfl
    · simp only [execData, hst]
      rfl
  | illegal marker =>
    obtain rfl : s.raise (.unrecognizedHeader, 1) = t := by simpa [exec, execIllegal] using h
    rfl
  | _ => simp [Instr.isHostOp] at hi

section
variable {s t : State} {other : Memory} (hsame : ∀ a < s.len, Memory.read other a = Memory.read s.mem a)
include hsame

/-- The decoder's window ends at `LEN`, so it fetches the same instruction. -/
theorem State.fetch_withMem : ({ s with mem := other } : State).fetch = s.fetch := by
  have hwindow : ({ s with mem := other } : State).window = s.window :=
    Memory.readBytes_congr (n := s.len - s.cur) fun k hk => hsame (s.cur + k) (by omega)
  simp only [State.fetch, hwindow]

/-- The decoder's turn is the same, over the other buffer. -/
theorem walk_withMem (h : walk s = .next t) : walk { s with mem := other } = .next { t with mem := other } := by
  obtain ⟨hp, rfl⟩ | ⟨hp, hc, rfl⟩ | ⟨hp, hc, i, hi, he⟩ := walk_next h
  · exact walk_of_not_run hp
  · exact walk_at_end hp hc
  · obtain ⟨-, hframe, -⟩ := State.fetch_frame hi
    exact (walk_of_fetch (s := { s with mem := other }) hp hc ((State.fetch_withMem hsame).trans hi)).trans
      (exec_frame_withMem hframe he other)

end

end Sys2Proof.Machine
end

section
/-! SUPPORT. The obligations of memory. -/

open Sys2Proof Sys2Proof.Machine

/-- Settles O53: the decoder's turn has a next state, and of the host's operations only `START` can fault, on a byte
below `LEN` that the invariant gives a value. -/
theorem noFaultFromTheInvariant : Obligations.NoFaultFromTheInvariant := by
  intro s hinv
  obtain hd | ⟨i, hi, -⟩ := turn_cases s
  · obtain ⟨t, ht⟩ := State.Inv.walk_goes_on hinv.popTurn
    rw [step_decoder hd, ht]
    exact ⟨trivial, fun _ => trivial⟩
  · rw [step_host hi]
    exact ⟨noFault_of_ne_fault (State.Inv.exec_ne_fault hinv.popTurn i), fun hd => absurd hd (not_decoderMoves_of_hostIssues hi)⟩

/-- Settles O22: equal buffers read the same at every address. -/
theorem framesLeaveTheBufferAndTheHostAlone : Obligations.FramesLeaveTheBufferAndTheHostAlone := by
  intro s t i hi h
  have hkeeps := exec_frame_keeps hi h
  exact ⟨fun a => by rw [hkeeps.1], hkeeps⟩

/-- Settles O25: the agenda is not in the buffer, so the turn is the decoder's over either one. -/
theorem decoderReadsNothingPastLen : Obligations.DecoderReadsNothingPastLen := by
  intro s t other hd _ hsame h
  have hd' : ({ s with mem := other } : State).decoderMoves := hd
  rw [step_decoder hd] at h
  rw [step_decoder hd']
  exact ⟨walk_mem (s := s.popTurn) h, walk_withMem (s := s.popTurn) hsame h⟩

end

section
/-! SUPPORT. The rules of encoding: the encoder's bytes are decoded back and the decoder's instruction is encoded back
(R71, R76, R79, R80), the opcode table's match and mask (R86), and the values of digit strings and binary fields
(R53, R73). -/

namespace Sys2Proof

open Machine

/-! ## The heartbeat test (R71) -/

/-- A heartbeat frame, cut at its trailer. -/
theorem isHeartbeat_cons_iff {m : Byte} {bs : List Byte} :
    isHeartbeat (m :: bs) = true ↔ ∃ pre rest, pre.length = 12 ∧ bs = pre ++ trailer ++ rest := by
  rw [isHeartbeat_iff, List.drop_succ_cons]
  constructor
  · rintro ⟨hlen, htrailer⟩
    refine ⟨bs.take 12, (bs.drop 12).drop 3, ?_, ?_⟩
    · simp at hlen ⊢; omega
    · rw [← htrailer, List.append_assoc, List.take_append_drop, List.take_append_drop]
  · rintro ⟨pre, rest, hpre, rfl⟩
    refine ⟨by simp [trailer, hpre]; omega, ?_⟩
    rw [List.append_assoc, List.drop_left' hpre]
    rfl

theorem commandFits_iff {body : List Byte} {closed : Bool} :
    commandFits body closed = true ↔
      markerClose ∉ body ∧ ¬ (closed = true ∧ body.length = 14 ∧ body.drop 12 = [0x4A, 0x54]) := by
  simp only [commandFits, Bool.and_eq_true, Bool.not_eq_true', ← Bool.not_eq_true, List.contains_eq_mem,
    decide_eq_true_eq, and_assoc]

/-- A command frame is never a heartbeat: the trailer's 0x29 would stand in the body, or the frame would be the closed
one of 16 bytes that `commandFits` excludes. -/
theorem isHeartbeat_of_commandFits {body : List Byte} {closed : Bool} (h : commandFits body closed = true) (m : Byte) :
    isHeartbeat (m :: (body ++ if closed then [markerClose] else [])) = false := by
  obtain ⟨hbody, htrailer⟩ := commandFits_iff.1 h
  by_contra hh
  obtain ⟨pre, rest, hpre, heq⟩ := isHeartbeat_cons_iff.1 (by simpa using hh)
  cases closed with
  | false =>
    obtain rfl : body = pre ++ trailer ++ rest := by simpa using heq
    simp [trailer, markerClose] at hbody
  | true =>
    rcases List.eq_nil_or_concat rest with rfl | ⟨rest, last, rfl⟩
    · obtain rfl : body = pre ++ [0x4A, 0x54] := by
        refine (List.append_inj' (t₁ := [markerClose]) (t₂ := [0x29]) ?_ rfl).1
        simpa [trailer] using heq
      simp [hpre] at htrailer
    · obtain ⟨rfl, -⟩ : body = pre ++ trailer ++ rest ∧ [markerClose] = [last] := by
        refine List.append_inj' ?_ rfl
        simpa using heq
      simp [trailer, markerClose] at hbody

/-! ## Decoding, by the marker and the heartbeat test -/

theorem decode_hbeat (mode : ImeiMode) {bs : List Byte} (h : isHeartbeat (markerParen :: bs) = true) :
    decode mode (markerParen :: bs) = .ok (.hbeat (bs.take 10) ((bs.drop 10).take 2), bs.drop 15) := by
  simp [decode, classify, h]

theorem decode_cmd (mode : ImeiMode) {bs : List Byte} (h : isHeartbeat (markerParen :: bs) = false) :
    decode mode (markerParen :: bs) =
      .ok (.cmd (scanClose bs).1 (scanClose bs).2.isSome, (scanClose bs).2.getD []) := by
  simp [decode, classify, h]

theorem decode_data (mode : ImeiMode) {bytes : List Byte} (h : bytes.head? = some markerData) :
    decode mode bytes = .ok (.data (cutFields (fieldSizes mode) bytes).1 (cutFields (fieldSizes mode) bytes).2.1,
      (cutFields (fieldSizes mode) bytes).2.2) := by
  obtain ⟨bs, rfl⟩ := List.head?_eq_some_iff.1 h
  simp [decode, classify, show markerData ≠ markerParen by decide]

theorem decode_illegal (mode : ImeiMode) {m : Byte} (hparen : m ≠ markerParen) (hdata : m ≠ markerData)
    (bs : List Byte) : decode mode (m :: bs) = .ok (.illegal m, bs) := by
  simp [decode, classify, hparen, hdata]

/-! ## Decoding what was encoded, by the kind of frame -/

theorem decode_encode_hbeat (mode : ImeiMode) {tid unnamed : List Byte} (htid : tid.length = 10)
    (hunnamed : unnamed.length = 2) :
    decode mode (markerParen :: tid ++ unnamed ++ trailer) = .ok (.hbeat tid unnamed, []) := by
  have hh : isHeartbeat (markerParen :: (tid ++ unnamed ++ trailer)) = true :=
    isHeartbeat_cons_iff.2 ⟨tid ++ unnamed, [], by simp [htid, hunnamed], by simp⟩
  have hall : (tid ++ (unnamed ++ trailer)).length = 15 := by simp [htid, hunnamed, trailer]
  rw [List.cons_append, List.cons_append, decode_hbeat mode hh, List.append_assoc]
  simp only [List.take_left' htid, List.drop_left' htid, List.take_left' hunnamed,
    List.drop_of_length_le (Nat.le_of_eq hall)]

theorem decode_encode_cmd (mode : ImeiMode) {body : List Byte} {closed : Bool} (h : commandFits body closed = true) :
    decode mode (markerParen :: body ++ if closed then [markerClose] else []) = .ok (.cmd body closed, []) := by
  have hbody : markerClose ∉ body := (commandFits_iff.1 h).1
  rw [List.cons_append, decode_cmd mode (isHeartbeat_of_commandFits h markerParen)]
  cases closed with
  | true => simp [scanClose_append hbody []]
  | false => simp [scanClose_noClose hbody]

theorem decode_encode_data {mode : ImeiMode} {fields : List (List Byte)} {cut : List Byte}
    (hhead : fields.head? = some [markerData]) (hfit : fieldsFit (fieldSizes mode) fields cut = true) :
    decode mode (fields.flatten ++ cut) = .ok (.data fields cut, []) := by
  have hmarker : (fields.flatten ++ cut).head? = some markerData := by
    obtain ⟨fs, rfl⟩ := List.head?_eq_some_iff.1 hhead
    rfl
  rw [decode_data mode hmarker, cutFields_of_fit hfit]

/-! ## The opcode table (R86) -/

theorem and_0xFF (b : Byte) : b &&& 0xFF#8 = b := BitVec.and_allOnes

/-- What R86 asks of a row, byte by byte. -/
theorem PatternRow.fits_iff (r : PatternRow) (bytes : List Byte) :
    r.fits bytes = true ↔
      (∀ k < 16, bytes.getD k 0 &&& r.mask.getD k 0 = r.pattern.getD k 0) ∧ (r.kind = .hbeat → 16 ≤ bytes.length) := by
  simp only [PatternRow.fits, Bool.and_eq_true, Bool.or_eq_true, List.all_eq_true, List.mem_range, decide_eq_true_eq,
    ← Decidable.imp_iff_not_or, ne_eq]

/-- A row that masks out all but the marker. -/
def PatternRow.ofMarker (kind : FrameKind) (marker : Byte) : PatternRow :=
  ⟨kind, marker :: List.replicate 15 0, 0xFF :: List.replicate 15 0⟩

/-- The row of `HBEAT`, which masks out all but the marker and the trailer. -/
def PatternRow.ofHeartbeat : PatternRow :=
  ⟨.hbeat, markerParen :: List.replicate 12 0 ++ trailer, 0xFF :: List.replicate 12 0 ++ List.replicate 3 0xFF⟩

theorem patternRows_eq :
    patternRows = [.ofHeartbeat, .ofMarker .cmd markerParen, .ofMarker .data markerData] := rfl

/-- A row of the marker alone, which need not have 16 bytes, tests the marker alone. -/
theorem PatternRow.ofMarker_fits {kind : FrameKind} (hkind : kind ≠ .hbeat) (marker m : Byte) (bs : List Byte) :
    (PatternRow.ofMarker kind marker).fits (m :: bs) = decide (m = marker) := by
  rw [Bool.eq_iff_iff, PatternRow.fits_iff, decide_eq_true_iff]
  constructor
  · rintro ⟨hbytes, -⟩
    simpa [PatternRow.ofMarker, and_0xFF] using hbytes 0 (by decide)
  · rintro rfl
    refine ⟨fun k hk => ?_, fun h => absurd h hkind⟩
    cases k with
    | zero => simp [PatternRow.ofMarker, and_0xFF]
    | succ k =>
      simp only [PatternRow.ofMarker, List.getD_cons_succ, List.getD_replicate _ (Nat.lt_of_succ_lt_succ hk)]
      exact BitVec.and_zero

/-- The row of `HBEAT` tests four bytes and the length. -/
theorem PatternRow.ofHeartbeat_fits_iff (bytes : List Byte) :
    PatternRow.ofHeartbeat.fits bytes = true ↔
      (bytes.getD 0 0 = markerParen ∧ [bytes.getD 13 0, bytes.getD 14 0, bytes.getD 15 0] = trailer) ∧
        16 ≤ bytes.length := by
  rw [PatternRow.fits_iff]
  refine and_congr ⟨fun hbytes => ?_, fun htested k hk => ?_⟩ (imp_iff_right rfl)
  · have h0 := hbytes 0 (by decide)
    have h13 := hbytes 13 (by decide)
    have h14 := hbytes 14 (by decide)
    have h15 := hbytes 15 (by decide)
    simp_all [PatternRow.ofHeartbeat, trailer, and_0xFF]
  · interval_cases k <;> simp_all [PatternRow.ofHeartbeat, trailer, and_0xFF]

theorem take_three_drop {bs : List Byte} {k : Nat} (h : k + 3 ≤ bs.length) :
    (bs.drop k).take 3 = [bs.getD k 0, bs.getD (k + 1) 0, bs.getD (k + 2) 0] := by
  rw [List.drop_eq_getElem_cons (by omega), List.drop_eq_getElem_cons (by omega),
    List.drop_eq_getElem_cons (by omega)]
  simp only [List.take_succ_cons, List.take_zero, List.getD_eq_getElem _ _ (show k < bs.length by omega),
    List.getD_eq_getElem _ _ (show k + 1 < bs.length by omega),
    List.getD_eq_getElem _ _ (show k + 2 < bs.length by omega)]

/-- The row of `HBEAT` is the test of R71. -/
theorem PatternRow.ofHeartbeat_fits (m : Byte) (bs : List Byte) :
    PatternRow.ofHeartbeat.fits (m :: bs) = (decide (m = markerParen) && isHeartbeat (m :: bs)) := by
  rw [Bool.eq_iff_iff, PatternRow.ofHeartbeat_fits_iff, Bool.and_eq_true, decide_eq_true_iff, isHeartbeat_iff,
    List.getD_cons_zero, and_assoc]
  refine and_congr_right fun _ => and_comm.trans (and_congr_right fun hlen => ?_)
  rw [take_three_drop (by omega)]

/-- The table's rows, tried in order, are the tests of R102. -/
theorem tableKind_eq_classify (m : Byte) (bs : List Byte) : tableKind (m :: bs) = classify m bs := by
  have hcmd := PatternRow.ofMarker_fits (show FrameKind.cmd ≠ .hbeat by decide) markerParen m bs
  have hdata := PatternRow.ofMarker_fits (show FrameKind.data ≠ .hbeat by decide) markerData m bs
  rw [tableKind, patternRows_eq]
  simp only [List.find?_cons, PatternRow.ofHeartbeat_fits, hcmd, hdata]
  obtain ⟨hc, rfl, hh⟩ | ⟨hc, rfl, hh⟩ | ⟨hc, rfl⟩ | ⟨hc, hparen, hm⟩ := classify_cases m bs
  · simp [hc, hh, PatternRow.ofHeartbeat]
  · simp [hc, hh, PatternRow.ofMarker]
  · simp [hc, show markerData ≠ markerParen by decide, PatternRow.ofMarker]
  · simp [hc, hparen, hm]

end Sys2Proof

namespace Sys2Proof.Machine

/-! ## Slices -/

/-- A slice and what follows it. -/
theorem slice_append_drop (bs : List Byte) (a n : Nat) : slice bs a n ++ bs.drop (a + n) = bs.drop a := by
  rw [slice, ← List.drop_drop, List.take_append_drop]

/-- A buffer that holds a whole data frame gives every field, at the offsets of the layout, and nothing cut. -/
theorem cutFields_whole (mode : ImeiMode) {buf : List Byte} (h : dataLen mode ≤ buf.length) :
    cutFields (fieldSizes mode) buf =
      (((fieldOffsets mode).zip (fieldSizes mode)).map (fun p => slice buf p.1 p.2), [], buf.drop (dataLen mode)) := by
  have hends : ∀ p ∈ (offsetsFrom 0 (fieldSizes mode)).zip (fieldSizes mode), p.1 + p.2 ≤ dataLen mode := by
    cases mode <;> decide
  have hfields := cutFields_slices buf 0 0 (fieldSizes_pos mode)
  rw [List.takeWhile_eq_self_iff.2 fun p hp => by simpa using (hends p hp).trans h, ← fieldOffsets_eq] at hfields
  refine Prod.ext (by simpa using hfields) ?_
  rw [cutFields_rest (by rwa [fieldSizes_sum]), fieldSizes_sum]

/-! ## Positional sums (R53, R73) -/

/-- A number read digit by digit, from the most significant, is the sum of the digits times powers of the base. -/
theorem foldl_eq_positionalSum {w : Nat} (base : Nat) (ds : List (BitVec w)) (acc : Nat) :
    ds.foldl (fun acc d => base * acc + d.toNat) acc = acc * base ^ ds.length +
      ((List.range ds.length).map fun i => (ds.getD i 0).toNat * base ^ (ds.length - 1 - i)).sum := by
  induction ds generalizing acc with
  | nil => simp
  | cons d ds ih =>
    have hexp : ∀ i, ds.length - 1 - i = ds.length - (i + 1) := fun i => by omega
    simp only [List.foldl_cons, ih, List.length_cons, List.range_succ_eq_map, List.map_cons, List.map_map,
      List.sum_cons, Function.comp_def, List.getD_cons_zero, List.getD_cons_succ, Nat.succ_eq_add_one,
      Nat.add_sub_cancel, Nat.sub_zero, hexp]
    ring

theorem dec_eq_decimalSum {ds : List Nibble} (h : allDigits ds) : dec ds = some (decimalSum ds) := by
  rw [dec, if_pos (by simpa [allDigits] using h), foldl_eq_positionalSum, Nat.zero_mul, Nat.zero_add]
  rfl

theorem be_eq_bigEndianSum (bs : List Byte) : be bs = bigEndianSum bs := by
  rw [be, foldl_eq_positionalSum, Nat.zero_mul, Nat.zero_add]
  rfl

theorem be_lt (bs : List Byte) : be bs < 2 ^ (8 * bs.length) := by
  induction bs using List.reverseRecOn with
  | nil => decide
  | append_singleton bs b ih =>
    have hb := b.isLt
    rw [be_append, List.length_append, List.length_singleton, Nat.mul_add, pow_add, show 2 ^ (8 * 1) = 256 from rfl]
    omega

end Sys2Proof.Machine
end

section
/-! SUPPORT. The obligations of encoding. -/

open Sys2Proof Sys2Proof.Machine

/-- Settles O1, by the kind of frame. -/
theorem decodeOfEncodeIsTheInstruction : Obligations.DecodeOfEncodeIsTheInstruction := by
  intro mode i bytes hwf henc
  cases i with
  | hbeat tid unnamed =>
    obtain rfl : markerParen :: tid ++ unnamed ++ trailer = bytes := by simpa [encode] using henc
    simp only [Instr.wellFormed, Bool.and_eq_true, decide_eq_true_eq] at hwf
    exact decode_encode_hbeat mode hwf.1 hwf.2
  | cmd body closed =>
    obtain rfl : (markerParen :: body ++ if closed then [markerClose] else []) = bytes := by simpa [encode] using henc
    exact decode_encode_cmd mode hwf
  | data fields cut =>
    obtain rfl : fields.flatten ++ cut = bytes := by simpa [encode] using henc
    simp only [Instr.wellFormed, Bool.and_eq_true, decide_eq_true_eq] at hwf
    exact decode_encode_data hwf.1 hwf.2
  | illegal m =>
    obtain rfl : [m] = bytes := by simpa [encode] using henc
    simp only [Instr.wellFormed, Bool.and_eq_true, decide_eq_true_eq] at hwf
    exact decode_illegal mode hwf.2 hwf.1 []
  | _ => simp [encode] at henc

/-- Settles O2: each kind of frame puts together again what the decoder took apart. -/
theorem encodeOfDecodeIsTheBytes : Obligations.EncodeOfDecodeIsTheBytes := by
  intro mode bytes rest i h
  have hwf := decode_wellFormed h
  obtain ⟨m, bs, rfl, ⟨rfl, hh, rfl, rfl⟩ | ⟨rfl, -, rfl, rfl⟩ | ⟨-, rfl, rfl⟩ | ⟨-, -, rfl, rfl⟩⟩ := decode_cases h
  · refine ⟨rfl, hwf, _, rfl, ?_⟩
    have htrailer : slice bs 12 3 = trailer := (isHeartbeat_iff.1 hh).2
    calc markerParen :: slice bs 0 10 ++ slice bs 10 2 ++ trailer ++ bs.drop 15
        = markerParen :: (slice bs 0 10 ++ (slice bs 10 2 ++ (slice bs 12 3 ++ bs.drop 15))) := by simp [htrailer]
      _ = markerParen :: bs := by
        rw [slice_append_drop bs 12 3, slice_append_drop bs 10 2, slice_append_drop bs 0 10, List.drop_zero]
  · refine ⟨rfl, hwf, _, rfl, ?_⟩
    rcases scanClose_eq bs with ⟨hnone, hbs⟩ | ⟨r, hsome, hbs⟩
    · simp [hnone, ← hbs]
    · simp [hsome, ← hbs]
  · exact ⟨rfl, hwf, _, rfl, cutFields_flatten _ _⟩
  · exact ⟨rfl, hwf, _, rfl, rfl⟩

/-- Settles O3: the rows of the table, tried in order, are the tests of the classification. -/
theorem classificationAgreesWithOpcodeTable : Obligations.ClassificationAgreesWithOpcodeTable :=
  fun m bs => (tableKind_eq_classify m bs).symm

/-- Settles O4: neither test of the classification passes. -/
theorem otherMarkersAreIllegal : Obligations.OtherMarkersAreIllegal :=
  fun mode _ bs hdata hparen => decode_illegal mode hparen hdata bs

/-- Settles O5: with 62 bytes every field fits, so the fields are the slices at the running sums of the sizes. -/
theorem dataFrameFieldsSitAtTheirOffsets : Obligations.DataFrameFieldsSitAtTheirOffsets := by
  intro f hhead hlen
  have hcut : cutFields (fieldSizes .hex8) f =
      (((fieldOffsets .hex8).zip (fieldSizes .hex8)).map (fun p => slice f p.1 p.2), [], f.drop 62) :=
    cutFields_whole .hex8 hlen
  rw [decode_data .hex8 hhead, hcut]
  rfl

/-- Settles O6, by computing the two layouts. -/
theorem layoutOffsetsAndFrameLengths : Obligations.LayoutOffsetsAndFrameLengths := by
  refine ⟨by decide, by decide, by decide, fieldSizes_sum .hex8, rfl, fieldSizes_sum .ascii15, rfl⟩

/-- Settles O7, by decoding the words. -/
theorem writtenOutWordsDecode : Obligations.WrittenOutWordsDecode := by
  refine ⟨?_, ?_, ?_, ?_, ?_⟩ <;> decide

/-- Settles O8: both folds are positional sums, in base 10 and 256. -/
theorem digitStringsAndBinaryFieldsHaveTheirValues : Obligations.DigitStringsAndBinaryFieldsHaveTheirValues := by
  refine ⟨fun bs k hk => ?_, fun ds hds => ?_, fun ds hds => ?_, fun bs => ?_⟩
  · obtain ⟨hhigh, hlow⟩ := nibbles_getElem? bs k hk
    exact ⟨hhigh, hlow, nibbles_length bs⟩
  · have hdec := dec_eq_decimalSum hds
    exact ⟨hdec, (dec_eq_some hdec).2⟩
  · simpa [dec_eq_none, allDigits] using hds
  · rw [← be_eq_bigEndianSum]
    exact ⟨rfl, be_lt bs⟩

end

section
/-! SUPPORT. The rules of the frame walk: the scan for the closing marker by indices (R104), how far a frame moves the
cursor (R107), one lemma per row of R112's loop, and the decoder's turn as one round of that loop. -/

namespace Sys2Proof

open Machine

/-! ## The scan, by indices (R104) -/

/-- The scan stops at the first 0x29, wherever it stands. -/
theorem scanClose_of_first {bs : List Byte} {j : Nat} (hj : bs[j]? = some markerClose)
    (hfirst : ∀ k < j, bs[k]? ≠ some markerClose) : scanClose bs = (bs.take j, some (bs.drop (j + 1))) := by
  obtain ⟨hlt, hget⟩ := List.getElem?_eq_some_iff.1 hj
  have hbody : markerClose ∉ bs.take j := by
    intro hmem
    obtain ⟨k, hk, hclose⟩ := List.mem_take_iff_getElem.1 hmem
    exact hfirst k (by omega) (List.getElem?_eq_some_iff.2 ⟨by omega, hclose⟩)
  have hsplit : bs = bs.take j ++ markerClose :: bs.drop (j + 1) := by
    rw [← hget, ← List.drop_eq_getElem_cons hlt, List.take_append_drop]
  conv_lhs => rw [hsplit]
  exact scanClose_append hbody _

end Sys2Proof

namespace Sys2Proof.Machine

/-! ## How far a frame moves the cursor (R107) -/

/-- A frame that does not fail leaves `PHASE` and moves the cursor by 2 or more, over bytes of its own. -/
theorem exec_frame_cursor {i : Instr} {s t : State} {own : List Byte} (hwf : i.wellFormed s.cfg.imeiMode = true)
    (hi : i.isHostOp = false) (henc : encode i = some own) (he : exec i s = .next t) :
    t.phase = .fail ∨ (t.phase = s.phase ∧ s.cur + 2 ≤ t.cur ∧ t.cur ≤ s.cur + own.length) := by
  obtain ⟨tid, unnamed, rfl, rfl⟩ | ⟨body, rfl, rfl⟩ | ⟨fields, cut, st, rfl, hst, rfl⟩ | ⟨e, -, -, rfl⟩ :=
    exec_frame_cases hi he
  · obtain ⟨htid, hunnamed⟩ : tid.length = 10 ∧ unnamed.length = 2 := by simpa [Instr.wellFormed] using hwf
    have hlen : own.length = hbLen := by
      simp [← Option.some.inj henc, htid, hunnamed, trailer]
    exact .inr ⟨rfl, Nat.add_le_add_left (by decide) _, Nat.add_le_add_left hlen.ge _⟩
  · have hlen : own.length = body.length + 2 := by simp [← Option.some.inj henc]
    exact .inr ⟨rfl, Nat.add_le_add_left (Nat.le_add_left 2 _) _, Nat.add_le_add_left hlen.ge _⟩
  · obtain ⟨-, -, -, -, -, hflat⟩ := dataFrame_ok hwf hst
    have hlen : dataLen s.cfg.imeiMode ≤ own.length := by
      rw [← Option.some.inj henc, List.length_append, hflat]
      exact Nat.le_add_right _ _
    exact .inr ⟨rfl, Nat.add_le_add_left (Nat.le_trans (by decide) (dataLen_ge _)) _, Nat.add_le_add_left hlen _⟩
  · exact .inl rfl

/-- The bytes of the frame at the cursor lie below `LEN`, so the cursor does not pass it. -/
theorem exec_fetched_cursor {i : Instr} {s t : State} (hc : s.cur ≤ s.len) (hi : s.fetch = .ok i)
    (he : exec i s = .next t) :
    t.phase = .fail ∨ (t.phase = s.phase ∧ s.cur + 2 ≤ t.cur ∧ t.cur ≤ s.len) := by
  obtain ⟨hwf, hframe, own, henc, hown⟩ := State.fetch_frame hi
  refine (exec_frame_cursor hwf hframe henc he).imp_right fun ⟨hphase, hmin, hmax⟩ => ⟨hphase, hmin, ?_⟩
  omega

/-! ## The loaded bytes and `START` -/

/-- The bytes below `LEN` are `buf`. -/
structure State.Holds (s : State) (buf : List Byte) : Prop where
  len : s.len = buf.length
  read : ∀ k (h : k < buf.length), Memory.read s.mem k = some buf[k]

theorem State.loaded_holds (s : State) (bytes : List Byte) : (s.loaded bytes).Holds bytes :=
  ⟨rfl, fun k hk => by simpa using Memory.read_writeBytes_inside s.mem 0 bytes hk⟩

/-- Where every address below `LEN` holds a value, the loaded bytes are a sequence. -/
theorem State.bufferOk.exists_holds {s : State} (h : s.bufferOk) : ∃ buf, s.Holds buf := by
  obtain ⟨-, -, -, hread⟩ := h
  obtain ⟨buf, hbuf⟩ := Memory.readBytes_of_readable (a := 0) (n := s.len) fun a ha => by simpa using hread a ha
  obtain ⟨hlen, hget⟩ := Memory.readBytes_eq_ok.1 hbuf
  exact ⟨buf, hlen.symm, fun k hk => by simpa using hget k hk⟩

/-- What `LOAD` within the capacity does to a state that is not decoding (`execLoad_next` is the inversion). -/
theorem execLoad_of_fits {s : State} {bytes : List Byte} (hp : s.phase ≠ .run) (hl : bytes.length ≤ s.cfg.bufMax) :
    execLoad bytes s = .next (s.loaded bytes) := by
  rw [execLoad, if_neg hp, if_pos hl]

/-- `START` is ignored during `RUN`. -/
theorem execStart_of_run {s : State} (hp : s.phase = .run) : execStart s = .next s := by
  rw [execStart, if_pos hp]

/-- The instruction that the bytes from the cursor to `LEN` decode to is the one fetched (R102). -/
theorem State.fetch_of_bytes {s : State} {bytes rest : List Byte} {i : Instr} (hlen : bytes.length = s.len - s.cur)
    (hread : ∀ k (h : k < bytes.length), Memory.read s.mem (s.cur + k) = some bytes[k])
    (hd : decode s.cfg.imeiMode bytes = .ok (i, rest)) : s.fetch = .ok i := by
  have hwindow : s.window = .ok bytes := Memory.readBytes_eq_ok.2 ⟨hlen, hread⟩
  simp only [State.fetch, hwindow, hd]

section
variable {s t : State} {buf : List Byte} (hb : s.Holds buf)
include hb

theorem State.Holds.popTurn : s.popTurn.Holds buf := ⟨hb.len, hb.read⟩

theorem State.Holds.of_frame {i : Instr} (hi : i.isHostOp = false) (he : exec i s = .next t) : t.Holds buf := by
  obtain ⟨hmem, hlen, -⟩ := exec_frame_keeps hi he
  exact ⟨hlen.trans hb.len, hmem ▸ hb.read⟩

/-- What is fetched below `LEN` is what the rest of the loaded bytes decodes to. -/
theorem State.Holds.fetch (hc : s.cur < buf.length) :
    ∃ i rest, s.fetch = .ok i ∧ decode s.cfg.imeiMode (buf.drop s.cur) = .ok (i, rest) := by
  have hne : buf.drop s.cur ≠ [] := by simpa using hc
  obtain ⟨⟨i, rest⟩, hd⟩ := decode_of_ne_nil s.cfg.imeiMode hne
  refine ⟨i, rest, State.fetch_of_bytes (by simp [hb.len]) (fun k hk => ?_) hd, hd⟩
  rw [List.getElem_drop]
  exact hb.read _ (by simp at hk; omega)

end

/-! ## The rows of R112's loop -/

/-- R112's heartbeat test, by offsets, is R71's. -/
theorem isHeartbeat_drop_iff {buf : List Byte} {c : Nat} :
    isHeartbeat (buf.drop c) = true ↔ 16 ≤ buf.length - c ∧ slice buf (c + 13) 3 = trailer := by
  rw [isHeartbeat_iff, List.length_drop, List.drop_drop, slice]

theorem firstClose_eq_none {buf : List Byte} {c : Nat} (h : firstClose buf c = none) :
    markerClose ∉ buf.drop (c + 1) := by
  intro hmem
  obtain ⟨k, hk, hclose⟩ := List.mem_drop_iff_getElem.1 hmem
  have hget : buf[c + 1 + k]? = some markerClose := List.getElem?_eq_some_iff.2 ⟨by omega, hclose⟩
  have hle : c + 1 + k ≤ c := by simpa [hget] using List.find?_range_eq_none.1 h (c + 1 + k) (by omega)
  omega

/-- The index R112 looks for is where the scan of the bytes after the marker stops. -/
theorem scanClose_of_firstClose {buf : List Byte} {c j : Nat} (h : firstClose buf c = some j) :
    ∃ body rest, scanClose (buf.drop (c + 1)) = (body, some rest) ∧ c + (body.length + 2) = j + 1 := by
  obtain ⟨hj, hmem, hbefore⟩ := List.find?_range_eq_some.1 h
  obtain ⟨hcj, hclose⟩ : c < j ∧ buf[j]? = some markerClose := by simpa using hj
  obtain ⟨d, rfl⟩ := Nat.exists_eq_add_of_lt hcj
  refine ⟨_, _, scanClose_of_first (j := d) ?_ fun k hk hclose' => ?_, ?_⟩
  · rw [List.getElem?_drop, ← hclose]
    congr 1
    omega
  · rw [List.getElem?_drop] at hclose'
    have hle : c + 1 + k ≤ c := by simpa [hclose'] using hbefore (c + 1 + k) (by omega)
    omega
  · have : c + d + 1 < buf.length := List.mem_range.1 hmem
    simp
    omega

/-- R154's fields by offsets are the cut of the bytes from the frame's start. -/
theorem dataFrameAt_eq (cfg : Config) (buf : List Byte) (c : Nat) :
    dataFrameAt cfg buf c = dataFrame cfg (cutFields (fieldSizes cfg.imeiMode) (buf.drop c)).1 := by
  have := cutFields_slices buf c 0 (fieldSizes_pos cfg.imeiMode)
  rw [Nat.add_zero] at this
  rw [dataFrameAt, fieldOffsets_eq, this]

section
variable {cfg : Config} {buf : List Byte} {c : Nat} {msg : Msg} {recs : List Record} (fuel : Nat)

theorem decodeLoop_at_end (h : buf.length ≤ c) : decodeLoop cfg buf (fuel + 1) c msg recs = some (.ok msg recs) := by
  simp [decodeLoop, List.getElem?_eq_none h]

theorem decodeLoop_hbeat (hm : buf[c]? = some markerParen) (hh : isHeartbeat (buf.drop c) = true) :
    decodeLoop cfg buf (fuel + 1) c msg recs =
      decodeLoop cfg buf fuel (c + 16)
        { msg with containsHealthcheck := true, terminalId := slice buf (c + 1) 10 } recs := by
  simp only [decodeLoop, hm, if_pos, if_pos (isHeartbeat_drop_iff.1 hh)]

theorem decodeLoop_cmd_open (hm : buf[c]? = some markerParen) (hh : isHeartbeat (buf.drop c) = false)
    (hf : firstClose buf c = none) :
    decodeLoop cfg buf (fuel + 1) c msg recs = some (.fail .incompleteField 30 c) := by
  have hno := mt isHeartbeat_drop_iff.2 (Bool.not_eq_true _ ▸ hh)
  simp only [decodeLoop, hm, if_pos, if_neg hno, hf]

theorem decodeLoop_cmd_closed {j : Nat} (hm : buf[c]? = some markerParen) (hh : isHeartbeat (buf.drop c) = false)
    (hf : firstClose buf c = some j) :
    decodeLoop cfg buf (fuel + 1) c msg recs = decodeLoop cfg buf fuel (j + 1) msg recs := by
  have hno := mt isHeartbeat_drop_iff.2 (Bool.not_eq_true _ ▸ hh)
  simp only [decodeLoop, hm, if_pos, if_neg hno, hf]

theorem decodeLoop_data_error {e : Failure} (hm : buf[c]? = some markerData)
    (hr : dataFrameAt cfg buf c = .error e) :
    decodeLoop cfg buf (fuel + 1) c msg recs = some (.fail e.1 e.2 c) := by
  simp only [decodeLoop, hm, if_pos, if_neg (show markerData ≠ markerParen by decide), hr]

theorem decodeLoop_data_ok {st : Staged} (hm : buf[c]? = some markerData) (hr : dataFrameAt cfg buf c = .ok st) :
    decodeLoop cfg buf (fuel + 1) c msg recs =
      decodeLoop cfg buf fuel (c + dataLen cfg.imeiMode) (msg.withStaged st) (recs ++ [st.record]) := by
  simp only [decodeLoop, hm, if_pos, if_neg (show markerData ≠ markerParen by decide), hr]

theorem decodeLoop_illegal {m : Byte} (hm : buf[c]? = some m) (hparen : m ≠ markerParen) (hdata : m ≠ markerData) :
    decodeLoop cfg buf (fuel + 1) c msg recs = some (.fail .unrecognizedHeader 1 c) := by
  simp only [decodeLoop, hm, if_neg hparen, if_neg hdata]

end

/-! ## The decoder's turn is one round of the loop (R112) -/

/-- What R112's loop answers from where the walk stands. -/
def State.loopFrom (s : State) (buf : List Byte) (fuel : Nat) : Option DecodeResult :=
  decodeLoop s.cfg buf fuel s.cur s.msg s.recs

/-- The frame at the cursor fails as the loop does, or goes where the loop goes on. -/
theorem exec_decoded_loopFrom {s t : State} {buf rest : List Byte} {i : Instr}
    (hd : decode s.cfg.imeiMode (buf.drop s.cur) = .ok (i, rest)) (he : exec i s = .next t) :
    (∃ e : Failure, t = s.raise e ∧ ∀ fuel, s.loopFrom buf (fuel + 1) = some (.fail e.1 e.2 s.cur)) ∨
    (t.phase = s.phase ∧ ∀ fuel, s.loopFrom buf (fuel + 1) = t.loopFrom buf fuel) := by
  obtain ⟨m, bs, hdrop, hcases⟩ := decode_cases hd
  have hm : buf[s.cur]? = some m := by rw [← List.head?_drop, hdrop]; rfl
  have hbs : buf.drop (s.cur + 1) = bs := by rw [← List.drop_drop, hdrop]; rfl
  rw [← hdrop, ← hbs] at hcases
  obtain ⟨rfl, hh, rfl, -⟩ | ⟨rfl, hh, rfl, -⟩ | ⟨rfl, rfl, -⟩ | ⟨hparen, hdata, rfl, -⟩ := hcases
  · obtain rfl : (s.heartbeat (slice buf (s.cur + 1) 10)).advance hbLen = t := by
      simpa [exec, execHbeat, ascii, slice] using he
    exact .inr ⟨rfl, fun fuel => decodeLoop_hbeat fuel hm hh⟩
  · cases hf : firstClose buf s.cur with
    | none =>
      rw [scanClose_noClose (firstClose_eq_none hf)] at he
      obtain ⟨h, -⟩ | ⟨-, rfl⟩ := execCmd_next he
      · simp at h
      · exact .inl ⟨_, rfl, fun fuel => decodeLoop_cmd_open fuel hm hh hf⟩
    | some j =>
      obtain ⟨body, after, hscan, hnext⟩ := scanClose_of_firstClose hf
      rw [hscan] at he
      obtain ⟨-, rfl⟩ | ⟨h, -⟩ := execCmd_next he
      · refine .inr ⟨rfl, fun fuel => (decodeLoop_cmd_closed fuel hm hh hf).trans ?_⟩
        rw [State.loopFrom, State.advance_cur, hnext, State.advance_cfg, State.advance_msg, State.advance_recs]
      · simp at h
  · have hat := dataFrameAt_eq s.cfg buf s.cur
    obtain ⟨e, hr, rfl⟩ | ⟨st, hr, rfl⟩ :=
      execData_next (cut := (cutFields (fieldSizes s.cfg.imeiMode) (buf.drop s.cur)).2.1) he
    · exact .inl ⟨e, rfl, fun fuel => decodeLoop_data_error fuel hm (hat.trans hr)⟩
    · exact .inr ⟨rfl, fun fuel => decodeLoop_data_ok fuel hm (hat.trans hr)⟩
  · obtain rfl : s.raise (.unrecognizedHeader, 1) = t := by simpa [exec, execIllegal] using he
    exact .inl ⟨_, rfl, fun fuel => decodeLoop_illegal fuel hm hparen hdata⟩

/-- The decoder's turn during `RUN` ends the decode with what the loop answers, or goes on as the loop does, the cursor
2 or more bytes further. -/
theorem walk_loopFrom {s : State} {buf : List Byte} (hb : s.Holds buf) (hrun : s.phase = .run)
    (hc : s.cur ≤ buf.length) :
    ∃ t, walk s = .next t ∧
      ((∃ r, t.observed = some r ∧ ∀ fuel, s.loopFrom buf (fuel + 1) = some r) ∨
       (t.phase = .run ∧ t.agenda = s.agenda ∧ t.Holds buf ∧ s.cur + 2 ≤ t.cur ∧ t.cur ≤ buf.length ∧
        ∀ fuel, s.loopFrom buf (fuel + 1) = t.loopFrom buf fuel)) := by
  obtain hend | hlt := hc.eq_or_lt
  · exact ⟨_, walk_at_end hrun (hend.trans hb.len.symm), .inl ⟨.ok s.msg s.recs, rfl, fun fuel =>
      decodeLoop_at_end fuel hend.ge⟩⟩
  · obtain ⟨i, rest, hi, hd⟩ := hb.fetch hlt
    obtain ⟨-, hframe, -⟩ := State.fetch_frame hi
    obtain ⟨t, he⟩ := exec_frame_next hframe s
    refine ⟨t, (walk_of_fetch hrun (hb.len ▸ hlt.ne) hi).trans he, ?_⟩
    obtain ⟨e, rfl, hloop⟩ | ⟨hphase, hloop⟩ := exec_decoded_loopFrom hd he
    · exact .inl ⟨_, rfl, hloop⟩
    · rw [hrun] at hphase
      obtain hfail | ⟨-, hmin, hmax⟩ := exec_fetched_cursor (hb.len ▸ hc) hi he
      · simp [hphase] at hfail
      · obtain ⟨-, -, -, hagenda, -⟩ := exec_frame_keeps hframe he
        exact .inr ⟨hphase, hagenda, hb.of_frame hframe he, hmin, hb.len ▸ hmax, hloop⟩

/-! ## Whole runs -/

/-- A run that begins with a step that goes on. -/
theorem runSteps_succ_of_step {s t : State} (h : step s = .next t) (k : Nat) : runSteps (k + 1) s = runSteps k t := by
  simp only [runSteps, h]

/-- What is observed is observed at the end of a decode. -/
theorem State.ended_of_observed {s : State} {r : DecodeResult} (h : s.observed = some r) : s.ended := by
  cases hp : s.phase with
  | done => exact .inl hp
  | fail => exact .inr hp
  | idle | run => simp [State.observed, hp] at h

/-- The decoder left to itself ends with what R112's loop answers, within half the bytes left plus one steps. -/
theorem runSteps_loopFrom {s : State} {buf : List Byte} {fuel : Nat} (hb : s.Holds buf) (hrun : s.phase = .run)
    (hagenda : s.agenda = []) (hc : s.cur ≤ buf.length) (hfuel : buf.length - s.cur < fuel) :
    ∃ k t r, k ≤ (buf.length - s.cur) / 2 + 1 ∧ runSteps k s = .next t ∧ t.observed = some r ∧
      s.loopFrom buf fuel = some r := by
  induction fuel generalizing s with
  | zero => omega
  | succ fuel ih =>
    obtain ⟨t, hw, hround⟩ := walk_loopFrom hb hrun hc
    have hstep : step s = .next t := by rw [step_decoder (.inl hagenda), State.popTurn_of_nil hagenda, hw]
    obtain ⟨r, hr, hloop⟩ | ⟨hrun', hagenda', hb', hmin, hmax, hloop⟩ := hround
    · exact ⟨1, t, r, by omega, runSteps_succ_of_step hstep 0, hr, hloop fuel⟩
    · obtain ⟨k, u, r, hk, hrunk, hr, hrest⟩ := ih hb' hrun' (hagenda'.trans hagenda) hmax (by omega)
      exact ⟨k + 1, u, r, by omega, (runSteps_succ_of_step hstep k).trans hrunk, hr, (hloop fuel).trans hrest⟩

/-- `START` with an empty agenda, and the steps that follow, compute `Decode` of the loaded bytes (R112). -/
theorem execStart_decodeBuffer {s : State} {buf : List Byte} (hb : s.Holds buf) (hp : s.phase ≠ .run)
    (hagenda : s.agenda = []) :
    ∃ t k u r, execStart s = .next t ∧ k ≤ buf.length / 2 + 1 ∧ runSteps k t = .next u ∧ u.observed = some r ∧
      decodeBuffer s.cfg buf = some r := by
  obtain ⟨hlen, hread⟩ := hb
  by_cases hshort : buf.length < 16
  · refine ⟨_, 0, _, .fail .frameTooShort 0 0, execStart_of_short hp (hlen ▸ hshort), Nat.zero_le _, rfl, rfl, ?_⟩
    rw [decodeBuffer, if_pos hshort]
  · obtain ⟨b, bs, rfl⟩ := List.exists_cons_of_length_pos (show 0 < buf.length by omega)
    have hmin : minLen ≤ s.len := hlen ▸ Nat.le_of_not_lt hshort
    have hfirst : Memory.read s.mem 0 = some b := hread 0 (Nat.succ_pos _)
    by_cases hheader : b = markerData ∨ b = markerParen
    · obtain ⟨k, u, r, hk, hrunk, hr, hloop⟩ := runSteps_loopFrom (s := s.fresh.begin b) (fuel := (b :: bs).length + 1)
        ⟨hlen, hread⟩ rfl hagenda (Nat.zero_le _) (Nat.lt_succ_self _)
      refine ⟨_, k, u, r, execStart_of_header hp hmin hfirst hheader, hk, hrunk, hr, ?_⟩
      simp only [decodeBuffer, if_neg hshort, List.head?_cons, if_pos hheader]
      exact hloop
    · refine ⟨_, 0, _, .fail .unrecognizedHeader 1 0, execStart_of_unrecognized hp hmin hfirst hheader,
        Nat.zero_le _, rfl, rfl, ?_⟩
      simp only [decodeBuffer, if_neg hshort, List.head?_cons, if_neg hheader]

end Sys2Proof.Machine
end

section
/-! SUPPORT. The obligations of the frame walk. -/

open Sys2Proof Sys2Proof.Machine

/-- Settles O58: the two host turns leave the bytes loaded and the rest to `START`, whose run computes `Decode`. -/
theorem loadStartAndStepsComputeDecode : Obligations.LoadStartAndStepsComputeDecode := by
  intro s bytes hp hl hagenda
  have hload : step s = .next (s.popTurn.loaded bytes) := by
    rw [step_host ⟨_, by rw [hagenda]; rfl, rfl⟩]
    exact execLoad_of_fits (s := s.popTurn) hp hl
  obtain ⟨t, k, u, r, hstart, hk, hrun, hr, hdecode⟩ := execStart_decodeBuffer
    (s.popTurn.loaded_holds bytes).popTurn hp (by simp [hagenda])
  have hstep : step (s.popTurn.loaded bytes) = .next t := by
    rw [step_host ⟨⟨.start, rfl⟩, by simp [hagenda], rfl⟩]
    exact hstart
  refine ⟨k + 2, u, r, by omega, ?_, State.ended_of_observed hr, hr, hdecode⟩
  rw [runSteps_succ_of_step hload, runSteps_succ_of_step hstep, hrun]

/-- Settles O57: the run that computes what R112's loop answers is that short. -/
theorem everyDecodeEnds : Obligations.EveryDecodeEnds := by
  intro s hinv hagenda hrun
  obtain ⟨hbuf, ⟨-, -, hcurRun⟩, -⟩ := hinv
  obtain ⟨buf, hb⟩ := hbuf.exists_holds
  have hc : s.cur ≤ buf.length := hb.len ▸ (hcurRun hrun).1
  obtain ⟨k, t, r, hk, hrunk, hr, -⟩ := runSteps_loopFrom hb hrun hagenda hc (Nat.lt_succ_self _)
  exact ⟨k, t, hb.len.symm ▸ hk, hrunk, State.ended_of_observed hr⟩

/-- Settles O13: a frame leaves `PHASE` or fails, and no host operation goes to `DONE`. -/
theorem doneIsReachedOnlyAtTheEndOfTheBuffer : Obligations.DoneIsReachedOnlyAtTheEndOfTheBuffer := by
  intro s t h hnot hdone
  obtain hd | ⟨i, hi, hop⟩ := turn_cases s
  · rw [step_decoder hd] at h
    obtain ⟨-, rfl⟩ | ⟨hrun, hend, -⟩ | ⟨hrun, -, i, hi, he⟩ := walk_next h
    · exact absurd hdone hnot
    · exact ⟨hd, hrun, hend⟩
    · obtain ⟨-, hframe, -⟩ := State.fetch_frame hi
      obtain hphase | hfail := exec_frame_phase hframe he
      · simp [hphase.trans hrun] at hdone
      · simp [hfail] at hdone
  · rw [step_host hi] at h
    obtain ⟨r, rfl⟩ | ⟨-, rfl⟩ | ⟨bytes, -, hload⟩ | ⟨-, hstart⟩ := exec_hostOp_cases hop h
    · exact absurd hdone hnot
    · simp at hdone
    · exact absurd ((execLoad_results hload).1 ▸ hdone) hnot
    · obtain hphase | ⟨-, hphase | hphase⟩ := execStart_phase hstart
      · exact absurd (hphase ▸ hdone) hnot
      · simp [hphase] at hdone
      · simp [hphase] at hdone

/-- Settles O16: the bytes pass the heartbeat test, and the operands are slices of the frame. -/
theorem heartbeatFrameEffect : Obligations.HeartbeatFrameEffect := by
  refine ⟨fun s tid unnamed => rfl, fun mode f hhead hlen htrailer => ?_⟩
  obtain ⟨bs, rfl⟩ := List.head?_eq_some_iff.1 hhead
  exact decode_hbeat mode (isHeartbeat_iff.2 ⟨hlen, htrailer⟩)

/-- Settles O18, by computing both outcomes. -/
theorem commandFrameEffect : Obligations.CommandFrameEffect :=
  fun _ _ => ⟨rfl, rfl⟩

/-- Settles O17: the scan stops at the first 0x29, so the frame is `CMD` with the `j` bytes before it. -/
theorem commandFrameEndsAtTheFirstClosingMarker : Obligations.CommandFrameEndsAtTheFirstClosingMarker := by
  intro mode s bs hh
  have hd := decode_cmd mode hh
  refine ⟨fun j hj hfirst => ?_, fun hnone => ?_⟩
  · rw [scanClose_of_first hj hfirst] at hd
    obtain ⟨hlt, -⟩ := List.getElem?_eq_some_iff.1 hj
    obtain ⟨heffect, -⟩ := commandFrameEffect s (bs.take j)
    rw [List.length_take_of_le hlt.le] at heffect
    exact ⟨_, hd, heffect⟩
  · rw [scanClose_noClose hnone] at hd
    exact ⟨_, hd, (commandFrameEffect s bs).2⟩

/-- Settles O24: the frame at the cursor moves it over its own bytes, which are 2 or more and lie below `LEN`. -/
theorem framesMoveTheCursorForward : Obligations.FramesMoveTheCursorForward := by
  intro s t hinv hd hrun hc h hfail
  obtain ⟨-, ⟨-, -, hcurRun⟩, -⟩ := hinv
  rw [step_decoder hd] at h
  obtain ⟨hnot, -⟩ | ⟨-, hend, -⟩ | ⟨-, -, i, hi, he⟩ := walk_next h
  · exact absurd hrun hnot
  · exact absurd hend hc
  · exact ((exec_fetched_cursor (s := s.popTurn) (hcurRun hrun).1 hi he).resolve_left hfail).2

/-- Settles O28, one clause per branch of `START`. -/
theorem startChecksSizeThenHeader : Obligations.StartChecksSizeThenHeader := by
  refine fun s => ⟨fun b hp hl hb hm => ?_, fun hp hl => ?_, fun b hp hl hb hdata hparen => ?_, fun hrun => ?_⟩
  · exact execStart_of_header hp hl hb hm
  · exact execStart_of_short hp hl
  · exact execStart_of_unrecognized hp hl hb (not_or.2 ⟨hdata, hparen⟩)
  · exact execStart_of_run hrun

/-- Settles O10: the bytes named are the decoder's window, and there is at least one of them. -/
theorem stepRunsTheDecodedInstruction : Obligations.StepRunsTheDecodedInstruction := by
  intro s bytes rest i hd hrun hlen hread hdecode
  obtain ⟨m, bs, rfl, -⟩ := decode_cases hdecode
  have hc : s.cur ≠ s.len := by
    simp only [List.length_cons] at hlen
    omega
  rw [step_decoder hd]
  exact walk_of_fetch (s := s.popTurn) hrun hc (State.fetch_of_bytes (s := s.popTurn) hlen hread hdecode)

/-- Settles O12, by the two branches of the decoder's turn that run no frame. -/
theorem walkFinishesAtTheEndAndRestsOutsideRun : Obligations.WalkFinishesAtTheEndAndRestsOutsideRun := by
  intro s hd
  rw [step_decoder hd]
  exact ⟨walk_at_end (s := s.popTurn), walk_of_not_run (s := s.popTurn)⟩

/-- Settles O21, by computing failure entry. -/
theorem illegalMarkerFailsTheDecode : Obligations.IllegalMarkerFailsTheDecode :=
  fun _ _ => rfl

end

section
/-! SUPPORT. A data frame against the causes of R154: each field's rule reports the causes of its own field, so the
whole frame reports the first of all causes. -/

namespace Sys2Proof.Machine

/-! ## Digits and their causes -/

theorem dec_isNone (ds : List Nibble) : (dec ds).isNone = ds.any fun d => decide (9 < d.toNat) := by
  rw [Bool.eq_iff_iff, Option.isNone_iff_eq_none, dec_eq_none]
  simp

/-- R131 has a cause under `DATE_TIME_12` only. -/
theorem utimeMillis_isNone (src : UtimeSrc) (bs : List Byte) : (utimeMillis src bs).isNone =
    (decide (src = .dateTime12) && (nibbles bs).any fun d => decide (9 < d.toNat)) := by
  cases src with
  | dateTime12 => simpa [utimeMillis] using dec_isNone (nibbles bs)
  | uninterpreted => simp [utimeMillis]

/-- R193: eight digits are never out of the latitude's range. -/
theorem chkLat_of_dec {bs : List Byte} {v : Nat} (hl : bs.length ≤ 4) (h : dec (nibbles bs) = some v) :
    chkLat (BitVec.ofNat 32 v) = true := by
  obtain ⟨-, hlt⟩ := dec_eq_some h
  have hdigits : (nibbles bs).length ≤ 8 := by rw [nibbles_length]; omega
  exact chkLat_of_lt (hlt.trans_le (Nat.pow_le_pow_right (by decide) hdigits))

/-- R193: nine digits are never out of the longitude's range. -/
theorem chkLng_of_dec {ds : List Nibble} {v : Nat} (h : dec (ds.take 9) = some v) :
    chkLng (BitVec.ofNat 32 v) = true := by
  obtain ⟨-, hlt⟩ := dec_eq_some h
  exact chkLng_of_lt (hlt.trans_le (Nat.pow_le_pow_right (by decide) (List.length_take_le 9 ds)))

/-- R133's cause, of a field of one byte or none. -/
theorem chkAngle_u8 {bs : List Byte} (hl : bs.length ≤ 1) :
    chkAngle (u8 bs) = !bs.any fun b => decide (180 < b.toNat) := by
  match bs, hl with
  | [], _ => decide
  | [b], _ => rw [Bool.eq_iff_iff, chkAngle_iff]; simp [u8]

/-! ## An answer that reports the first of its causes -/

/-- The answer is the failure of the first cause that holds; when none holds, it is staged values with `P`. -/
def Reports (causes : List (Failure × Bool)) (P : Staged → Prop) (r : FieldResult) : Prop :=
  (∀ c, causes.find? (fun c => c.2) = some c → r = .error c.1) ∧
  (causes.find? (fun c => c.2) = none → ∃ st, r = .ok st ∧ P st)

section
variable {P Q : Staged → Prop} {r : FieldResult} {e : Failure} {causes later : List (Failure × Bool)}

theorem Reports.of_ok {st : Staged} (h : P st) : Reports [] P (.ok st) :=
  ⟨by simp, fun _ => ⟨st, rfl, h⟩⟩

/-- A cause that holds is reported, whatever comes after it. -/
theorem Reports.of_cause : Reports ((e, true) :: causes) P (.error e) :=
  ⟨by simp, by simp⟩

/-- A cause that does not hold changes nothing. -/
theorem reports_cons_false : Reports ((e, false) :: causes) P r ↔ Reports causes P r := by
  simp [Reports]

/-- The one cause is that a value is missing. -/
theorem Reports.of_isNone {o : Option Nat} (hnone : o = none → r = .error e)
    (hsome : ∀ v, o = some v → ∃ st, r = .ok st ∧ P st) : Reports [(e, o.isNone)] P r := by
  cases o with
  | none => rw [hnone rfl]; exact .of_cause
  | some v =>
    obtain ⟨st, rfl, hst⟩ := hsome v rfl
    exact reports_cons_false.2 (.of_ok hst)

/-- Work done in order reports the causes in that order. -/
theorem Reports.bind {g : Staged → FieldResult} (hr : Reports causes Q r)
    (hg : ∀ st, Q st → Reports later P (g st)) : Reports (causes ++ later) P (r.bind g) := by
  obtain ⟨herr, hok⟩ := hr
  unfold Reports
  rw [List.find?_append]
  cases hc : causes.find? (fun c => c.2) with
  | some c => simp [herr c hc, Except.bind]
  | none =>
    obtain ⟨st, rfl, hst⟩ := hok hc
    exact hg st hst

end

/-! ## The rules of the fields -/

theorem runFields_cons (k : Nat) (rule : List Byte → Staged → FieldResult)
    (rules : List (List Byte → Staged → FieldResult)) (f : List Byte) (fs : List (List Byte)) (st : Staged) :
    runFields k (rule :: rules) (f :: fs) st = (rule f st).bind (runFields (k + 1) rules fs) := by
  rw [runFields]
  cases rule f st <;> rfl

/-- The causes of one field, the one at index `k`: that it is missing, and those of its value. -/
def fieldCauses (cfg : Config) (fields : List (List Byte)) (k : Nat) : List (Failure × Bool) :=
  ((.incompleteField, BitVec.ofNat 6 (k + 1)), decide (fields.length ≤ k)) :: valueCauses cfg fields (k + 1)

theorem failureCauses_eq (cfg : Config) (fields : List (List Byte)) :
    failureCauses cfg fields = (List.range' 0 28).flatMap (fieldCauses cfg fields) := rfl

/-- What the fields before the one at index `k` have staged for it: the time, at index 6, is read together with the
date (R131). -/
def DateStaged (fields : List (List Byte)) (k : Nat) (st : Staged) : Prop :=
  k = 6 → st.dateTimeBytes = fields.getD 5 []

/-- Each rule, the first at index `k`, reports the causes of its field's value. -/
def RulesReport (cfg : Config) (fields : List (List Byte)) : Nat → List (List Byte → Staged → FieldResult) → Prop
  | _, [] => True
  | k, rule :: rules =>
    (∀ st, DateStaged fields k st →
      Reports (valueCauses cfg fields (k + 1)) (DateStaged fields (k + 1)) (rule (fields.getD k []) st)) ∧
    RulesReport cfg fields (k + 1) rules

/-- R154's loop reports the causes of the fields still to come, in layout order. -/
theorem runFields_reports {cfg : Config} {fields : List (List Byte)}
    {rules : List (List Byte → Staged → FieldResult)} {k : Nat} {st : Staged} (hr : RulesReport cfg fields k rules)
    (hst : DateStaged fields k st) :
    Reports ((List.range' k rules.length).flatMap (fieldCauses cfg fields)) (fun _ => True)
      (runFields (k + 1) rules (fields.drop k) st) := by
  induction rules generalizing k st with
  | nil => exact .of_ok trivial
  | cons rule rules ih =>
    obtain ⟨hrule, hrules⟩ := hr
    rw [List.length_cons, List.range'_succ, List.flatMap_cons, fieldCauses, List.cons_append]
    by_cases hk : fields.length ≤ k
    · rw [List.drop_of_length_le hk, decide_eq_true hk]
      exact .of_cause
    · have hlt := Nat.lt_of_not_le hk
      rw [decide_eq_false hk, reports_cons_false, List.drop_eq_getElem_cons hlt, runFields_cons,
        ← List.getD_eq_getElem fields [] hlt]
      exact (hrule st hst).bind fun st' hst' => ih hrules hst'

section
variable {cfg : Config} {fields : List (List Byte)} {st : Staged}

theorem stageTime_reports (h : DateStaged fields 6 st) :
    Reports (valueCauses cfg fields 7) (DateStaged fields 7) (stageTime cfg (fields.getD 6 []) st) := by
  rw [valueCauses, ← utimeMillis_isNone, ← h rfl]
  refine .of_isNone (fun hnone => ?_) fun ms hms => ?_
  · rw [stageTime, hnone]
  · rw [stageTime, hms]
    exact ⟨_, rfl, by simp [DateStaged]⟩

theorem stageLatitude_reports (hl : (fields.getD 7 []).length ≤ 4) :
    Reports (valueCauses cfg fields 8) (DateStaged fields 8) (stageLatitude (fields.getD 7 []) st) := by
  rw [valueCauses, ← dec_isNone]
  refine .of_isNone (fun hnone => ?_) fun v hv => ?_
  · rw [stageLatitude, hnone]
  · simp only [stageLatitude, hv, chkLat_of_dec hl hv, if_true]
    exact ⟨_, rfl, by simp [DateStaged]⟩

theorem stageLongitude_reports :
    Reports (valueCauses cfg fields 9) (DateStaged fields 9) (stageLongitude (fields.getD 8 []) st) := by
  rw [valueCauses, ← dec_isNone]
  refine .of_isNone (fun hnone => ?_) fun v hv => ?_
  · rw [stageLongitude, hnone]
  · simp only [stageLongitude, hv, chkLng_of_dec hv, if_true]
    exact ⟨_, rfl, by simp [DateStaged]⟩

theorem stageAngle_reports (hl : (fields.getD 10 []).length ≤ 1) :
    Reports (valueCauses cfg fields 11) (DateStaged fields 11) (stageAngle (fields.getD 10 []) st) := by
  rw [valueCauses, stageAngle, chkAngle_u8 hl]
  cases (fields.getD 10 []).any fun b => decide (180 < b.toNat) with
  | true => exact .of_cause
  | false => exact reports_cons_false.2 (.of_ok (by simp [DateStaged]))

/-- Every rule reports its own causes: the date stages its bytes, the time, the coordinates and the angle have causes,
and no other rule fails. -/
theorem fieldRules_report (hlat : (fields.getD 7 []).length ≤ 4) (hangle : (fields.getD 10 []).length ≤ 1) :
    RulesReport cfg fields 0 (fieldRules cfg) := by
  refine ⟨?_, ?_, ?_, ?_, ?_, ?date, ?time, ?latitude, ?longitude, ?_, ?angle, ?_, ?_, ?_, ?_, ?_, ?_, ?_, ?_, ?_, ?_,
    ?_, ?_, ?imei, ?_, ?_, ?_, ?_, trivial⟩
  case date => exact fun st _ => .of_ok fun _ => rfl
  case time => exact fun st h => stageTime_reports h
  case latitude => exact fun st _ => stageLatitude_reports hlat
  case longitude => exact fun st _ => stageLongitude_reports
  case angle => exact fun st _ => stageAngle_reports hangle
  case imei => exact fun st _ => by rw [stageImei_eq]; exact .of_ok nofun
  all_goals exact fun st _ => .of_ok nofun

end

/-- A field that fits the layout is no longer than its size; one that is not there is empty. -/
theorem fieldsFit_getD_length_le {ns : List Nat} {fs : List (List Byte)} {cut : List Byte}
    (h : fieldsFit ns fs cut = true) (k : Nat) : (fs.getD k []).length ≤ ns.getD k 0 := by
  have hlen : (fs.getD k []).length = (ns.take fs.length).getD k 0 := by
    rw [← fieldsFit_lengths h]
    exact (List.getD_map fs [] List.length).symm
  rw [hlen, List.getD_eq_getElem?_getD, List.getElem?_take]
  split
  · exact (List.getD_eq_getElem?_getD ..).ge
  · exact Nat.zero_le _

/-- A well-formed data frame, whole or cut short, reports the first of its causes. -/
theorem dataFrame_reports {cfg : Config} {fields : List (List Byte)} {cut : List Byte}
    (hwf : (Instr.data fields cut).wellFormed cfg.imeiMode = true) :
    Reports (failureCauses cfg fields) (fun _ => True) (dataFrame cfg fields) := by
  simp only [Instr.wellFormed, Bool.and_eq_true, decide_eq_true_eq] at hwf
  obtain ⟨-, hfit⟩ := hwf
  exact runFields_reports (fieldRules_report (fieldsFit_getD_length_le hfit 7) (fieldsFit_getD_length_le hfit 10)) nofun

/-! ## The meaning of `DATA` -/

section
variable {s : State} {fields : List (List Byte)} {cut : List Byte}

theorem exec_data_of_error {e : Failure} (h : dataFrame s.cfg fields = .error e) :
    exec (.data fields cut) s = .next (s.raise e) := by
  rw [exec, execData, h]

theorem exec_data_of_ok {st : Staged} (h : dataFrame s.cfg fields = .ok st) :
    exec (.data fields cut) s = .next ((s.commit st).advance (dataLen s.cfg.imeiMode)) := by
  rw [exec, execData, h]

end

/-! ## A legal frame -/

/-- R131: legal digits have a value, under either source. -/
theorem utimeMillis_of_digits {src : UtimeSrc} {bs : List Byte}
    (h : src = .dateTime12 → allDigits (nibbles bs)) : ∃ ms, utimeMillis src bs = some ms := by
  cases src with
  | dateTime12 => exact ⟨_, dec_eq_decimalSum (h rfl)⟩
  | uninterpreted => exact ⟨_, rfl⟩

/-- R129: the tenth nibble of the longitude is the low nibble of its fifth byte. -/
theorem nibbles_tenth {bs : List Byte} (h : bs.length = 5) :
    ((nibbles bs).drop 9).headD 0 = lowNibble (bs.getD 4 0) := by
  match bs, h with
  | [_, _, _, _, _], _ => rfl

/-- A data frame whose digits are legal and whose values pass the checks stages every field. -/
theorem dataFrame_of_legal {cfg : Config} {ms latv lngv : Nat}
    {f1 f2 f3 f4 f5 f6 f7 f8 f9 f10 f11 f12 f13 f14 f15 f16 f17 f18 f19 f20 f21 f22 f23 f24 f25 f26 f27 f28 :
      List Byte}
    (hms : utimeMillis cfg.utimeSrc (f6 ++ f7) = some ms) (hlen : f8.length ≤ 4) (hlat : dec (nibbles f8) = some latv)
    (hlng : dec ((nibbles f9).take 9) = some lngv) (hangle : chkAngle (u8 f11) = true) :
    dataFrame cfg [f1, f2, f3, f4, f5, f6, f7, f8, f9, f10, f11, f12, f13, f14, f15, f16, f17, f18, f19, f20, f21, f22,
        f23, f24, f25, f26, f27, f28] =
      .ok (wholeStaged cfg.imeiMode ms latv lngv f1 f2 f3 f4 f6 f7 f9 f10 f11 f12 f13 f14 f15 f16 f17 f18 f19 f20 f21
        f22 f23 f24 f26 f27 f28) := by
  rw [dataFrame_whole, hms, hlat, hlng]
  simp only [chkLat_of_dec hlen hlat, chkLng_of_dec hlng, hangle, if_true]

end Sys2Proof.Machine
end

section
/-! SUPPORT. The obligations of the data frame. -/

open Sys2Proof Sys2Proof.Machine

/-- Settles O19: the digits have values and the checks pass, so every field is staged and then committed. -/
theorem legalDataFrameIsCommitted : Obligations.LegalDataFrameIsCommitted := by
  intro s tid rl date time lat lng mil bind cell imei res mcc ver types spd ang sat hi lo bat gsm fen ex1 mncHi ex2
    mncLo ser _ _ _ _ hlatLen hlngLen _ _ _ _ _ _ htime hlat hlng hang
  obtain ⟨ms, hms⟩ := utimeMillis_of_digits htime
  refine ⟨ms, ?_, ?_⟩
  · cases hsrc : s.cfg.utimeSrc with
    | dateTime12 =>
      rw [hsrc, utimeMillis, dec_eq_decimalSum (htime hsrc)] at hms
      exact (Option.some.inj hms).symm
    | uninterpreted =>
      rw [hsrc] at hms
      exact (Option.some.inj hms).symm
  · rw [exec_data_of_ok (dataFrame_of_legal (f11 := [ang]) hms hlatLen.le (dec_eq_decimalSum hlat)
      (dec_eq_decimalSum hlng) ((chkAngle_iff ang).2 hang))]
    simp only [← nibbles_tenth hlngLen, ← be_eq_bigEndianSum]
    rfl

/-- Settles O20: the frame reports the first of its causes, and what it reports is raised or committed. -/
theorem dataFrameFailsForItsFirstCause : Obligations.DataFrameFailsForItsFirstCause := by
  intro s fields cut hwf
  obtain ⟨herr, hok⟩ := dataFrame_reports hwf
  refine ⟨fun c hc => exec_data_of_error (herr c hc), fun hnone => ?_⟩
  obtain ⟨st, hst, -⟩ := hok hnone
  refine ⟨_, exec_data_of_ok hst, rfl, s.commit_nrec st, ?_, rfl⟩
  simp [State.nrec]

end

section
/-! SUPPORT. The rules of the BitEventCodec: what `EVT.HAS` and `EVT.ADD` do bit by bit (R173, R174), and the names
`EVT.RENDER` lists as a selection from the bit numbers (R175). -/

namespace Sys2Proof.Machine

/-! ## Bit numbers of an enumeration (R170, R171) -/

section
variable {α : Type} {bit : α → Nat} {events : List α} (horder : events.map bit = List.range events.length)
include horder

/-- In a table listed bit 0 first, the event at place `k` has bit number `k`. -/
theorem bit_of_getElem? {k : Nat} {e : α} (he : events[k]? = some e) : bit e = k := by
  have h : (events.map bit)[k]? = some (bit e) := by simp [he]
  rw [horder] at h
  exact (List.getElem?_eq_some_iff.1 h).2.symm.trans (List.getElem_range _)

/-- A table that lists every event, bit 0 first, gives each event a bit of its own. -/
theorem bit_injective (hall : ∀ e, e ∈ events) : Function.Injective bit := fun a b h =>
  List.inj_on_of_nodup_map (horder ▸ List.nodup_range) (hall a) (hall b) h

end

theorem highBit_of_getElem? {k : Nat} {e : HighByteLockEvent}
    (he : [HighByteLockEvent.LongTimeUnlocking, .WrongPassword, .Swipe, .LowBattery, .CoverOpen, .CoverClosed,
      .MotorStuck, .Reserved][k]? = some e) : highBit e = k :=
  bit_of_getElem? rfl he

theorem lowBit_of_getElem? {k : Nat} {e : LowByteLockEvent}
    (he : [LowByteLockEvent.BaseStationPositioning, .EnterFence, .ExitFence, .RopeCut, .Vibration, .AckRequired,
      .RopeInserted, .MotorLocked][k]? = some e) : lowBit e = k :=
  bit_of_getElem? rfl he

theorem highBit_injective : Function.Injective highBit :=
  bit_injective (events := [.LongTimeUnlocking, .WrongPassword, .Swipe, .LowBattery, .CoverOpen, .CoverClosed,
    .MotorStuck, .Reserved]) rfl fun e => by cases e <;> decide

theorem lowBit_injective : Function.Injective lowBit :=
  bit_injective (events := [.BaseStationPositioning, .EnterFence, .ExitFence, .RopeCut, .Vibration, .AckRequired,
    .RopeInserted, .MotorLocked]) rfl fun e => by cases e <;> decide

theorem flagBit_lt (f : EventFlag) : flagBit f < 8 := by
  cases f with
  | high e => cases e <;> decide
  | low e => cases e <;> decide

/-! ## `EVT.HAS` and `EVT.ADD` (R173, R174) -/

/-- The flag operand is a mask with one bit (R172). -/
theorem flagByte_getLsbD (f : EventFlag) (j : Nat) : (flagByte f).getLsbD j = decide (j = flagBit f) := by
  simp [flagByte, BitVec.getLsbD_twoPow, flagBit_lt, eq_comm]

theorem flagByte_ne_zero (f : EventFlag) : flagByte f ≠ 0 := fun h => by
  have hbit := flagByte_getLsbD f (flagBit f)
  simp [h] at hbit

/-- `EVT.HAS` picks one bit of the set: the mask leaves the flag or nothing. -/
theorem evtHas_eq_getLsbD (set : Byte) (f : EventFlag) : evtHas set f = set.getLsbD (flagBit f) := by
  have hmask : set &&& flagByte f = if set.getLsbD (flagBit f) then flagByte f else 0 := BitVec.and_twoPow ..
  rw [evtHas, hmask]
  cases set.getLsbD (flagBit f) with
  | false => rfl
  | true => exact decide_eq_true (flagByte_ne_zero f)

/-- `EVT.ADD` sets one bit of the set and keeps the others. -/
theorem evtAdd_getLsbD (set : Byte) (f : EventFlag) (j : Nat) :
    (evtAdd set f).getLsbD j = (set.getLsbD j || decide (j = flagBit f)) := by
  rw [evtAdd, BitVec.getLsbD_or, flagByte_getLsbD]

theorem evtHas_evtAdd (set : Byte) (f f' : EventFlag) :
    evtHas (evtAdd set f) f' = (evtHas set f' || decide (flagBit f' = flagBit f)) := by
  rw [evtHas_eq_getLsbD, evtAdd_getLsbD, evtHas_eq_getLsbD]

theorem exec_evtHas (set : Byte) (f : EventFlag) (s : State) :
    exec (.evtHas set f) s = .next (s.answer (.evtHas (set.getLsbD (flagBit f)))) := by
  rw [← evtHas_eq_getLsbD]
  rfl

theorem exec_evtAdd (set : Byte) (f : EventFlag) (s : State) :
    exec (.evtAdd set f) s = .next (s.answer (.evtAdd (evtAdd set f))) := rfl

/-! ## `EVT.RENDER` (R175, R177) -/

theorem exec_evtRender (t : EventTable) (set : Byte) (s : State) :
    exec (.evtRender t set) s =
      .next (s.answer (.evtRender (evtNames t set) (String.intercalate "|" (evtNames t set)))) := rfl

/-- The walk along the names selects the places of the 1 bits, counted from the first name's bit. -/
theorem matchedNames_eq (set : Byte) (k : Nat) (names : List String) :
    matchedNames set k names =
      ((List.range names.length).filter fun j => set.getLsbD (k + j)).map fun j => names.getD j "" := by
  induction names generalizing k with
  | nil => rfl
  | cons n ns ih =>
    have htail : matchedNames set (k + 1) ns =
        (((List.range ns.length).map Nat.succ).filter fun j => set.getLsbD (k + j)).map
          fun j => (n :: ns).getD j "" := by
      rw [ih, List.filter_map, List.map_map]
      simp only [Function.comp_def, List.getD_cons_succ, Nat.succ_add_eq_add_succ, Nat.succ_eq_add_one]
    rw [matchedNames, List.length_cons, List.range_succ_eq_map, List.filter_cons, htail, Nat.add_zero]
    cases set.getLsbD k with
    | false => rfl
    | true => rfl

theorem eventNames_length (t : EventTable) : (eventNames t).length = 8 := by cases t <;> rfl

theorem eventNames_nodup (t : EventTable) : (eventNames t).Nodup := by cases t <;> decide

/-- The names are those of the bit numbers at which the set has a 1, in ascending order. -/
theorem evtNames_eq (t : EventTable) (set : Byte) :
    evtNames t set = ((List.range 8).filter fun k => set.getLsbD k).map fun k => (eventNames t).getD k "" := by
  simp only [evtNames, matchedNames_eq, eventNames_length, Nat.zero_add]

theorem eventNames_getD_inj {t : EventTable} {j k : Nat} (hj : j < 8) (hk : k < 8)
    (h : (eventNames t).getD j "" = (eventNames t).getD k "") : j = k := by
  rw [← eventNames_length t] at hj hk
  rw [List.getD_eq_getElem _ _ hj, List.getD_eq_getElem _ _ hk] at h
  exact (eventNames_nodup t).getElem_inj_iff.1 h

/-- A bit's name is listed exactly when the bit is 1. -/
theorem getD_mem_evtNames_iff {t : EventTable} {set : Byte} {k : Nat} (hk : k < 8) :
    (eventNames t).getD k "" ∈ evtNames t set ↔ set.getLsbD k = true := by
  simp only [evtNames_eq, List.mem_map, List.mem_filter, List.mem_range]
  constructor
  · rintro ⟨j, ⟨hj, hbit⟩, hname⟩
    rwa [← eventNames_getD_inj hj hk hname]
  · exact fun hbit => ⟨k, ⟨hk, hbit⟩, rfl⟩

theorem evtNames_injective (t : EventTable) : Function.Injective (evtNames t) := by
  intro a b h
  refine BitVec.eq_of_getLsbD_eq fun k hk => ?_
  rw [Bool.eq_iff_iff, ← getD_mem_evtNames_iff hk, ← getD_mem_evtNames_iff hk, h]

end Sys2Proof.Machine
end

section
/-! SUPPORT. The obligations of the BitEventCodec. -/

open Sys2Proof Sys2Proof.Machine

/-- Settles O35: the flag's mask picks the bit the table gives the event. -/
theorem evtHasTestsTheEventsBit : Obligations.EvtHasTestsTheEventsBit := by
  intro s set k
  constructor
  · intro e he
    rw [exec_evtHas, flagBit, highBit_of_getElem? he]
    rfl
  · intro e he
    rw [exec_evtHas, flagBit, lowBit_of_getElem? he]
    rfl

/-- Settles O36: the flag's mask sets the bit the table gives the event. -/
theorem evtAddSetsTheEventsBit : Obligations.EvtAddSetsTheEventsBit := by
  intro s set k
  constructor
  · intro e he
    refine ⟨_, exec_evtAdd set (.high e) s, fun j _ => ?_⟩
    rw [evtAdd_getLsbD, flagBit, highBit_of_getElem? he]
  · intro e he
    refine ⟨_, exec_evtAdd set (.low e) s, fun j _ => ?_⟩
    rw [evtAdd_getLsbD, flagBit, lowBit_of_getElem? he]

/-- Settles O37: the walk along the table selects the names of the 1 bits in the table's order. -/
theorem evtRenderListsTheNamesInBitOrder : Obligations.EvtRenderListsTheNamesInBitOrder :=
  fun s t set => ⟨evtNames t set, exec_evtRender t set s, evtNames_eq t set⟩

/-- Settles O38: events of one enumeration have different bits, and the names tell every bit. -/
theorem eventCodecLaws : Obligations.EventCodecLaws := by
  refine ⟨fun set f => ?_, fun set e e' hne => ?_, fun set e e' hne => ?_, fun t set => ?_, fun t _ _ h =>
    evtNames_injective t h⟩
  · simp [evtHas_evtAdd]
  · simp [evtHas_evtAdd, flagBit, highBit_injective.ne hne]
  · simp [evtHas_evtAdd, flagBit, lowBit_injective.ne hne]
  · rw [evtNames_eq, List.length_map]

end

section
/-! SUPPORT. What the GPS validator's range checks answer (R190 to R192). -/

namespace Sys2Proof.Machine

theorem chkLat_eq_decide (v : BitVec 32) :
    chkLat v = decide (-850000000 < v.toInt ∧ v.toInt < 850000000) :=
  (Bool.decide_and _ _).symm

theorem chkLng_eq_decide (v : BitVec 32) :
    chkLng v = decide (-1800000000 < v.toInt ∧ v.toInt < 1800000000) :=
  (Bool.decide_and _ _).symm

theorem chkAngle_eq_decide (a : Byte) : chkAngle a = decide (a.toNat ≤ 180) := by
  rw [Bool.eq_iff_iff, chkAngle_iff, decide_eq_true_iff]

theorem exec_chkLat (v : BitVec 32) (s : State) :
    exec (.chkLat v) s = .next (s.answer (.check (chkLat v))) := rfl

theorem exec_chkLng (v : BitVec 32) (s : State) :
    exec (.chkLng v) s = .next (s.answer (.check (chkLng v))) := rfl

theorem exec_chkAngle (a : Byte) (s : State) :
    exec (.chkAngle a) s = .next (s.answer (.check (chkAngle a))) := rfl

end Sys2Proof.Machine
end

section
/-! SUPPORT. The obligation of the GPS validator. -/

open Sys2Proof Sys2Proof.Machine

/-- Settles O39: each check only answers, and its answer decides the stated bounds; the angle's `2 * a ≤ 360` is
`a ≤ 180`. -/
theorem rangeChecksDecideTheirBounds : Obligations.RangeChecksDecideTheirBounds := by
  intro s v a
  refine ⟨?_, ?_, ?_⟩
  · rw [exec_chkLat, chkLat_eq_decide, State.answer]
  · rw [exec_chkLng, chkLng_eq_decide, State.answer]
  · rw [exec_chkAngle, chkAngle_eq_decide, State.answer]

end

section
/-! SUPPORT. What the FrameSplitter does: where a text holds the marker text, the cut at it, the hex check of a piece,
and what `SPLIT` answers (R200, R201). -/

namespace Sys2Proof.Machine

/-! ## The marker text -/

theorem hasMarker_iff_isInfix {t : HexText} : hasMarker t ↔ ['2', '4'] <:+: t := by
  simp [hasMarker, List.IsInfix, eq_comm (a := t)]

@[simp] theorem not_hasMarker_nil : ¬ hasMarker [] := by
  simp [hasMarker_iff_isInfix]

theorem hasMarker_cons {c : Char} {t : HexText} :
    hasMarker (c :: t) ↔ (c = '2' ∧ t.head? = some '4') ∨ hasMarker t := by
  cases t <;> simp [hasMarker_iff_isInfix, List.infix_cons_iff, @eq_comm _ '2', @eq_comm _ '4']

/-- The same of a piece held latest character first, as `splitMarker` reads it. -/
theorem hasMarker_reverse_cons {c : Char} {seg : HexText} :
    hasMarker (c :: seg).reverse ↔ (seg.head? = some '2' ∧ c = '4') ∨ hasMarker seg.reverse := by
  have hswap : ∀ t : HexText, hasMarker t.reverse ↔ ['4', '2'] <:+: t := fun t => by
    rw [hasMarker_iff_isInfix, ← List.reverse_infix, List.reverse_reverse]; rfl
  rw [hswap, hswap]
  cases seg <;> simp [List.infix_cons_iff, @eq_comm _ '2', @eq_comm _ '4', and_comm]

/-! ## The pieces joined with the marker text between them -/

theorem join_cons_of_ne_nil (p : HexText) {ps : List HexText} (h : ps ≠ []) :
    ((p :: ps).intersperse ['2', '4']).flatten = p ++ '2' :: '4' :: (ps.intersperse ['2', '4']).flatten := by
  cases ps with
  | nil => contradiction
  | cons q qs => simp

/-- After the first piece, joined pieces are frames one after the other. -/
theorem join_eq_append_frames (p : HexText) (ps : List HexText) :
    ((p :: ps).intersperse ['2', '4']).flatten = p ++ (ps.map fun b => '2' :: '4' :: b).flatten := by
  induction ps generalizing p with
  | nil => simp
  | cons q qs ih => rw [join_cons_of_ne_nil p (List.cons_ne_nil q qs), ih q]; simp

/-! ## The cut at the markers -/

@[simp] theorem splitMarker_nil (seg : HexText) : splitMarker seg [] = [seg.reverse] := rfl

@[simp] theorem splitMarker_marker (seg rest : HexText) :
    splitMarker seg ('2' :: '4' :: rest) = seg.reverse :: splitMarker [] rest := by
  rw [splitMarker, if_pos ⟨rfl, rfl⟩]

/-- Where no marker begins, one more character joins the piece being read. -/
theorem splitMarker_cons (seg : HexText) {c : Char} {t : HexText} (h : ¬ (c = '2' ∧ t.head? = some '4')) :
    splitMarker seg (c :: t) = splitMarker (c :: seg) t := by
  cases t with
  | nil => rfl
  | cons d rest => rw [splitMarker, if_neg (by simpa using h)]

theorem splitMarker_ne_nil (seg text : HexText) : splitMarker seg text ≠ [] := by
  induction seg, text using splitMarker.induct with
  | case1 seg => simp
  | case2 seg c => simp [splitMarker]
  | case3 seg c d rest h _ => simp [splitMarker, h]
  | case4 seg c d rest h ih => rwa [splitMarker, if_neg h]

/-- R201 step 1: joined again, the pieces are the piece being read and the text after it. -/
theorem join_splitMarker (seg text : HexText) :
    ((splitMarker seg text).intersperse ['2', '4']).flatten = seg.reverse ++ text := by
  induction seg, text using splitMarker.induct with
  | case1 seg => simp
  | case2 seg c => simp [splitMarker]
  | case3 seg c d rest h ih =>
    obtain ⟨rfl, rfl⟩ := h
    rw [splitMarker_marker, join_cons_of_ne_nil _ (splitMarker_ne_nil [] rest), ih]
    simp
  | case4 seg c d rest h ih => simp [splitMarker, h, ih]

theorem noMarker_reverse_cons {seg : HexText} {c : Char} {t : HexText} (hseg : ¬ hasMarker seg.reverse)
    (hnext : ¬ (seg.head? = some '2' ∧ (c :: t).head? = some '4')) : ¬ hasMarker (c :: seg).reverse :=
  fun h => (hasMarker_reverse_cons.1 h).elim (by simpa using hnext) hseg

/-- No piece holds the marker text, when the piece being read holds none and makes none with the next character. -/
theorem splitMarker_noMarker {seg text : HexText} (hseg : ¬ hasMarker seg.reverse)
    (hnext : ¬ (seg.head? = some '2' ∧ text.head? = some '4')) :
    ∀ piece ∈ splitMarker seg text, ¬ hasMarker piece := by
  induction seg, text using splitMarker.induct with
  | case1 seg => simpa using hseg
  | case2 seg c =>
    simpa [splitMarker] using noMarker_reverse_cons hseg hnext
  | case3 seg c d rest h ih =>
    obtain ⟨rfl, rfl⟩ := h
    rw [splitMarker_marker, List.forall_mem_cons]
    exact ⟨hseg, ih (by simp) (by simp)⟩
  | case4 seg c d rest h ih =>
    rw [splitMarker, if_neg h]
    exact ih (noMarker_reverse_cons hseg hnext) (by simpa using h)

/-- A part without the marker text is read whole, when what follows it does not begin with "4". -/
theorem splitMarker_append {piece : HexText} (hpiece : ¬ hasMarker piece) (seg : HexText) {tail : HexText}
    (htail : tail.head? ≠ some '4') :
    splitMarker seg (piece ++ tail) = splitMarker (piece.reverse ++ seg) tail := by
  induction piece generalizing seg with
  | nil => rfl
  | cons c t ih =>
    obtain ⟨hc, ht⟩ := not_or.1 (hasMarker_cons.not.1 hpiece)
    have hbegin : ¬ (c = '2' ∧ (t ++ tail).head? = some '4') := by
      cases t with
      | nil => exact fun h => htail h.2
      | cons d t => exact hc
    rw [List.cons_append, splitMarker_cons seg hbegin, ih ht]
    simp

/-- A piece and frames without the marker text inside are cut back into that piece and those bodies. -/
theorem splitMarker_append_frames {p : HexText} {ps : List HexText} (hp : ¬ hasMarker p)
    (hps : ∀ b ∈ ps, ¬ hasMarker b) :
    splitMarker [] (p ++ (ps.map fun b => '2' :: '4' :: b).flatten) = p :: ps := by
  induction ps generalizing p with
  | nil => rw [splitMarker_append hp [] (by simp)]; simp
  | cons q qs ih =>
    obtain ⟨hq, hqs⟩ := List.forall_mem_cons.1 hps
    rw [splitMarker_append hp [] (by simp)]
    simp [ih hq hqs]

/-- Pieces without the marker text are what the cut finds in the text joined from them. -/
theorem splitMarker_join {raw : List HexText} (hne : raw ≠ []) (hraw : ∀ piece ∈ raw, ¬ hasMarker piece) :
    splitMarker [] (raw.intersperse ['2', '4']).flatten = raw := by
  cases raw with
  | nil => contradiction
  | cons p ps =>
    obtain ⟨hp, hps⟩ := List.forall_mem_cons.1 hraw
    rw [join_eq_append_frames, splitMarker_append_frames hp hps]

/-! ## White space and empty pieces -/

theorem not_isWhiteSpace_eq (c : Char) :
    (!isWhiteSpace c) = decide (c.toNat ∉ [0x20, 0x09, 0x0A, 0x0B, 0x0C, 0x0D]) := by
  rw [isWhiteSpace, List.contains_eq_mem, decide_not]

/-- R201 steps 1 to 3 on a text joined from pieces without the marker text. -/
theorem segments_join {raw : List HexText} (hne : raw ≠ []) (hraw : ∀ piece ∈ raw, ¬ hasMarker piece) :
    segments (raw.intersperse ['2', '4']).flatten = (raw.map (·.filter fun c =>
      decide (c.toNat ∉ [0x20, 0x09, 0x0A, 0x0B, 0x0C, 0x0D]))).filter (fun p => !p.isEmpty) := by
  simp only [segments, splitMarker_join hne hraw, not_isWhiteSpace_eq]

/-! ## The hex check -/

/-- The hex digits in either letter case, as `hexWellFormed` lists them. -/
def hexChars : List Char :=
  ['0', '1', '2', '3', '4', '5', '6', '7', '8', '9', 'a', 'b', 'c', 'd', 'e', 'f', 'A', 'B', 'C', 'D', 'E', 'F']

theorem hexWellFormed_iff {seg : HexText} :
    hexWellFormed seg ↔ seg.length % 2 = 0 ∧ ∀ c ∈ seg, c ∈ hexChars := Iff.rfl

/-- A character is in a list exactly when its code is among the codes. -/
theorem mem_iff_toNat_mem {c : Char} {cs : List Char} : c ∈ cs ↔ c.toNat ∈ cs.map Char.toNat :=
  (List.mem_map_of_injective fun _ _ h => Char.toNat_inj.1 h).symm

theorem hexDigit_isSome_iff (c : Char) : (hexDigit c).isSome ↔ c ∈ hexChars := by
  have hranges : (hexDigit c).isSome ↔ 0x30 ≤ c.toNat ∧ c.toNat ≤ 0x39 ∨ 0x41 ≤ c.toNat ∧ c.toNat ≤ 0x46 ∨
      0x61 ≤ c.toNat ∧ c.toNat ≤ 0x66 := by
    simp only [hexDigit]
    split_ifs <;> simp_all
  rw [hranges, mem_iff_toNat_mem]
  simp [hexChars]
  omega

theorem hexDecode_cons_cons_isSome (c d : Char) (rest : HexText) :
    (hexDecode (c :: d :: rest)).isSome ↔
      (hexDigit c).isSome ∧ (hexDigit d).isSome ∧ (hexDecode rest).isSome := by
  rw [hexDecode]
  split
  next hc hd hr => simp [hc, hd, hr]
  next hnone => simpa [Option.isSome_iff_exists] using fun hi hc lo hd bs => hnone hi lo bs hc hd

theorem hexWellFormed_cons_cons (c d : Char) (rest : HexText) :
    hexWellFormed (c :: d :: rest) ↔ c ∈ hexChars ∧ d ∈ hexChars ∧ hexWellFormed rest := by
  simp only [hexWellFormed_iff, List.length_cons, List.forall_mem_cons, Nat.add_assoc, Nat.add_mod_right]
  tauto

/-- R201 step 4: the pieces that decode are the well-formed ones. -/
theorem hexDecode_isSome_iff : ∀ seg : HexText, (hexDecode seg).isSome ↔ hexWellFormed seg
  | [] => by simp [hexDecode, hexWellFormed_iff]
  | [_] => by simp [hexDecode, hexWellFormed_iff]
  | c :: d :: rest => by
    rw [hexDecode_cons_cons_isSome, hexWellFormed_cons_cons, hexDigit_isSome_iff, hexDigit_isSome_iff,
      hexDecode_isSome_iff rest]

theorem hexDecode_isNone_iff (seg : HexText) : (hexDecode seg).isNone ↔ ¬ hexWellFormed seg := by
  rw [← hexDecode_isSome_iff, Option.not_isSome_iff_eq_none, Option.isNone_iff_eq_none]

theorem toNat_not_whiteSpace_of_mem_hexChars {c : Char} (h : c ∈ hexChars) :
    c.toNat ∉ [0x20, 0x09, 0x0A, 0x0B, 0x0C, 0x0D] := by
  revert c
  simp [hexChars]

/-- A well-formed piece has no white space to remove. -/
theorem filter_whiteSpace_of_wellFormed {seg : HexText} (h : hexWellFormed seg) :
    (seg.filter fun c => decide (c.toNat ∉ [0x20, 0x09, 0x0A, 0x0B, 0x0C, 0x0D])) = seg :=
  List.filter_eq_self.2 fun c hc => decide_eq_true (toNat_not_whiteSpace_of_mem_hexChars (h.2 c hc))

/-! ## The answer -/

theorem firstMalformed_eq_none {segs : List HexText} (h : ∀ p ∈ segs, hexWellFormed p) :
    firstMalformed segs = none :=
  List.find?_eq_none.2 fun p hp hbad => (hexDecode_isNone_iff p).1 hbad (h p hp)

theorem firstMalformed_eq_some {before after : List HexText} {bad : HexText}
    (hbefore : ∀ p ∈ before, hexWellFormed p) (hbad : ¬ hexWellFormed bad) :
    firstMalformed (before ++ bad :: after) = some bad := by
  have hnone : before.find? (fun seg => (hexDecode seg).isNone) = none := firstMalformed_eq_none hbefore
  rw [firstMalformed, List.find?_append, hnone, Option.none_or,
    List.find?_cons_of_pos (p := fun seg => (hexDecode seg).isNone) ((hexDecode_isNone_iff bad).2 hbad)]

theorem split_of_wellFormed {text : HexText} (h : ∀ p ∈ segments text, hexWellFormed p) :
    split text = .ok ((segments text).map fun p => '2' :: '4' :: p) := by
  rw [split, firstMalformed_eq_none h]

theorem split_of_malformed {text : HexText} {before after : List HexText} {bad : HexText}
    (h : segments text = before ++ bad :: after) (hbefore : ∀ p ∈ before, hexWellFormed p)
    (hbad : ¬ hexWellFormed bad) : split text = .malformedHex bad := by
  rw [split, h, firstMalformed_eq_some hbefore hbad]

/-- `SPLIT` only answers. -/
theorem exec_split (text : HexText) (s : State) :
    exec (.split text) s = .next { s with reply := some (.split (split text)) } := rfl

end Sys2Proof.Machine
end

section
/-! SUPPORT. The obligations of the FrameSplitter. -/

open Sys2Proof Sys2Proof.Machine

/-- Settles O41: the cut finds the pieces the text is joined from, and the answer turns on the first of them that does
not decode. -/
theorem splitAnswersAllPiecesOrTheFirstMalformed : Obligations.SplitAnswersAllPiecesOrTheFirstMalformed := by
  intro s raw pieces hne hraw hpieces
  have hsegs : segments (raw.intersperse ['2', '4']).flatten = pieces := by rw [segments_join hne hraw, hpieces]
  refine ⟨fun hall => ?_, fun before bad after hsplit hbefore hbad => ?_⟩
  · rw [exec_split, split_of_wellFormed (by rwa [hsegs]), hsegs]
  · rw [exec_split, split_of_malformed (hsegs.trans hsplit) hbefore hbad]

/-- Settles O40, by the scan's recursion, from an empty piece being read. -/
theorem splitterCutsAtEveryMarker : Obligations.SplitterCutsAtEveryMarker :=
  fun text => ⟨join_splitMarker [] text, splitMarker_noMarker (by simp) (by simp)⟩

/-- Settles O42: N frames are the join of an empty piece and the N bodies; the empty piece is dropped, and the bodies
have no white space to remove. -/
theorem splitterReturnsMarkerFreeFrames : Obligations.SplitterReturnsMarkerFreeFrames := by
  intro s bodies hbodies
  have hne : ∀ b ∈ bodies, b ≠ [] := fun b hb => (hbodies b hb).1
  have hhex : ∀ b ∈ bodies, hexWellFormed b := fun b hb => (hbodies b hb).2.1
  have hunmarked : ∀ b ∈ bodies, ¬ hasMarker b := fun b hb => (hbodies b hb).2.2
  have hframes : (bodies.map fun b => '2' :: '4' :: b).flatten =
      (([] :: bodies).intersperse ['2', '4']).flatten := (join_eq_append_frames [] bodies).symm
  have hraw : ∀ piece ∈ [] :: bodies, ¬ hasMarker piece :=
    List.forall_mem_cons.2 ⟨not_hasMarker_nil, hunmarked⟩
  have hpieces : bodies = (([] :: bodies).map (·.filter fun c =>
      decide (c.toNat ∉ [0x20, 0x09, 0x0A, 0x0B, 0x0C, 0x0D]))).filter (fun p => !p.isEmpty) := by
    have hclean : bodies.map (·.filter fun c => decide (c.toNat ∉ [0x20, 0x09, 0x0A, 0x0B, 0x0C, 0x0D])) = bodies :=
      (List.map_congr_left fun b hb => filter_whiteSpace_of_wellFormed (hhex b hb)).trans (List.map_id' _)
    have hkept : bodies.filter (fun p => !p.isEmpty) = bodies :=
      List.filter_eq_self.2 fun b hb => by simpa using hne b hb
    rw [List.map_cons, hclean, List.filter_nil, List.filter_cons_of_neg (by simp), hkept]
  rw [hframes]
  exact (splitAnswersAllPiecesOrTheFirstMalformed s _ bodies (List.cons_ne_nil _ _) hraw hpieces).1 hhex

end

section
/-! SUPPORT. What the HumanProjector reference functions answer (R215 to R225). -/

namespace Sys2Proof.Machine

/-! ## Every projection only answers -/

section
variable (s : State)

theorem exec_protocolVersionLabel (v : Byte) :
    exec (.protocolVersionLabel v) s = .next (s.answer (.label (versionLabel s.cfg v))) := rfl

theorem exec_deviceTypeLabel (t : Nibble) :
    exec (.deviceTypeLabel t) s = .next (s.answer (.label (deviceLabel t))) := rfl

theorem exec_dataTypeLabel (t : Nibble) :
    exec (.dataTypeLabel t) s = .next (s.answer (.dataType (dataLabel t))) := rfl

theorem exec_coordinateDegrees (raw : Nat) :
    exec (.coordinateDegrees raw) s = .next (s.answer (.millionths (coordinate raw))) := rfl

theorem exec_dateLabel (date : Chars) :
    exec (.dateLabel date) s = .next (s.answer (.date (calendarDate date))) := rfl

theorem exec_speedKmh (raw : Byte) : exec (.speedKmh raw) s = .next (s.answer (.millionths (speed raw))) := rfl

theorem exec_angleDegrees (raw : Byte) : exec (.angleDegrees raw) s = .next (s.answer (.number (degrees raw))) := rfl

theorem exec_gsmSignalQualityLabel (v : Byte) :
    exec (.gsmSignalQualityLabel v) s = .next (s.answer (.number (gsmQuality v))) := rfl

theorem exec_directionIndicatorLabel (ch : Byte) :
    exec (.directionIndicatorLabel ch) s = .next (s.answer (directionLabel ch)) := rfl

theorem exec_deviceStatusLabels (v : BitVec 16) :
    exec (.deviceStatusLabels v) s = .next (s.answer (.statusFlags (statusFlags v))) := rfl

end

/-! ## The tables, by the code's number (R216, R217, R222) -/

theorem deviceLabel_eq (t : Nibble) :
    deviceLabel t = if t.toNat = 1 then "Regular rechargeable JT701" else "Unknown" := by
  simp [deviceLabel, ← BitVec.toNat_inj]

theorem dataLabel_eq (t : Nibble) :
    dataLabel t = if t.toNat = 1 then .positional else if t.toNat = 2 then .alarm
      else if t.toNat = 3 then .blindArea else if t.toNat = 4 then .subNew else .unknown := by
  simp [dataLabel, ← BitVec.toNat_inj]

theorem gsmQuality_eq (v : Byte) : gsmQuality v = if v.toNat = 0 then 99 else v.toNat := by
  simp [gsmQuality, ← BitVec.toNat_inj]

/-! ## `round6` (R225) -/

/-- The quotient of `round6` is the floor of `num / den` in millionths plus one half, so it lies within half a
millionth, and a tie goes up. -/
theorem round6_nearest (num : Nat) {den : Nat} (hden : 0 < den) :
    (num : ℚ) / den - 1 / 2000000 < (round6 num den : ℚ) / 1000000 ∧
    (round6 num den : ℚ) / 1000000 ≤ (num : ℚ) / den + 1 / 2000000 := by
  have hpos : (0 : ℚ) < den := by exact_mod_cast hden
  have hle : round6 num den * (2 * den) ≤ 2 * (num * 1000000) + den := Nat.div_mul_le_self _ _
  have hlt : 2 * (num * 1000000) + den < (round6 num den + 1) * (2 * den) :=
    Nat.lt_mul_of_div_lt (Nat.lt_succ_self _) (Nat.mul_pos two_pos hden)
  have hle' : (round6 num den : ℚ) * (2 * den) ≤ 2 * (num * 1000000) + den := by exact_mod_cast hle
  have hlt' : 2 * ((num : ℚ) * 1000000) + den < (round6 num den + 1) * (2 * den) := by exact_mod_cast hlt
  constructor
  · rw [sub_lt_iff_lt_add, div_lt_iff₀ hpos]
    linarith
  · rw [← sub_le_iff_le_add, le_div_iff₀ hpos]
    linarith

/-- A whole number of millionths is its own rounding. -/
theorem round6_of_exact {num den n : Nat} (hden : 0 < den) (h : num * 1000000 = n * den) : round6 num den = n := by
  have hodd : 2 * (num * 1000000) + den = (2 * n + 1) * den := by rw [h]; ring
  rw [round6, hodd, Nat.mul_div_mul_right _ _ hden]
  omega

theorem speed_eq (raw : Byte) : speed raw = raw.toNat * 1850000 :=
  round6_of_exact (by decide) (by omega)

/-! ## `dateLabel` (R219) -/

theorem decimalDigit_ofNat (d : Fin 10) : decimalDigit (BitVec.ofNat 8 (0x30 + d)) = some d.val := by
  have hd := d.isLt
  have hval : (BitVec.ofNat 8 (0x30 + d)).toNat = 0x30 + d := by
    rw [BitVec.toNat_ofNat]
    omega
  rw [decimalDigit, hval, if_pos (by omega), Nat.add_sub_cancel_left]

theorem twoDigits_ofNat (hi lo : Fin 10) :
    twoDigits (BitVec.ofNat 8 (0x30 + hi)) (BitVec.ofNat 8 (0x30 + lo)) = some (10 * hi.val + lo.val) := by
  simp only [twoDigits, decimalDigit_ofNat]

theorem dateNumbers_ofNat (d1 d0 m1 m0 y1 y0 : Fin 10) :
    dateNumbers [BitVec.ofNat 8 (0x30 + d1), BitVec.ofNat 8 (0x30 + d0), BitVec.ofNat 8 (0x30 + m1),
        BitVec.ofNat 8 (0x30 + m0), BitVec.ofNat 8 (0x30 + y1), BitVec.ofNat 8 (0x30 + y0)] =
      some (10 * d1.val + d0.val, 10 * m1.val + m0.val, 10 * y1.val + y0.val) := by
  simp only [dateNumbers, twoDigits_ofNat]

/-- Every month has 28 days. -/
theorem le_daysInEveryYear (m : Nat) : 28 ≤ daysInEveryYear m := by
  unfold daysInEveryYear
  split_ifs <;> omega

section
variable {d m y : Nat} {date : Chars} (hn : dateNumbers date = some (d, m, y))
include hn

theorem calendarDate_of_everyMonth (hd : 1 ≤ d ∧ d ≤ 28) (hm : 1 ≤ m ∧ m ≤ 12) :
    calendarDate date = .ok d m y (Config.dateText d m y) := by
  have hmonth := le_daysInEveryYear m
  simp only [calendarDate, hn]
  rw [if_pos (by omega), if_pos (.inl (by omega))]

theorem calendarDate_of_outside (hout : d = 0 ∨ 31 < d ∨ m = 0 ∨ 12 < m) : calendarDate date = .malformed := by
  simp only [calendarDate, hn]
  rw [if_neg (by omega)]

end

/-! ## `directionIndicatorLabel` (R223) -/

/-- The nibble read from a nibble's hex character is that nibble. -/
theorem directionNibble_hexChar (n : Nibble) : directionNibble (hexChar n) = n := by
  have hn := n.isLt
  apply BitVec.eq_of_toNat_eq
  by_cases h : n.toNat ≤ 9
  · rw [directionNibble, hexChar_toNat, if_pos h, if_pos (by omega), BitVec.toNat_ofNat]
    omega
  · rw [directionNibble, hexChar_toNat, if_neg h, if_neg (by omega), if_pos (by omega), BitVec.toNat_ofNat]
    omega

/-- The bit number that `DIR_BITS` gives a meaning. -/
def meaningBit (m : DirectionMeaning) : Fin 4 := Config.directionBit m.index

theorem directionFlag_eq (n : Nibble) (m : DirectionMeaning) : directionFlag n m = n.getLsbD (meaningBit m) := rfl

theorem DirectionMeaning.index_injective : Function.Injective DirectionMeaning.index := by
  have hval : Function.Injective fun m : DirectionMeaning => m.index.val :=
    bit_injective (events := [.fixValid, .northSouth, .eastWest, .fixedValue]) rfl (by rintro ⟨⟩ <;> simp)
  exact hval.of_comp (f := Fin.val)

theorem meaningBit_injective : Function.Injective meaningBit :=
  Config.directionBit.injective.comp DirectionMeaning.index_injective

/-- The four booleans are the meanings' bits of the character's nibble. -/
theorem directionLabel_eq (ch : Byte) : ∃ text, directionLabel ch =
    .direction ((directionNibble ch).getLsbD (meaningBit .fixValid))
      ((directionNibble ch).getLsbD (meaningBit .northSouth)) ((directionNibble ch).getLsbD (meaningBit .eastWest))
      ((directionNibble ch).getLsbD (meaningBit .fixedValue)) text := ⟨_, rfl⟩

/-! ## `deviceStatusLabels` (R224) -/

/-- The bit numbers in the answer are those of the 1 bits, in ascending order. -/
theorem statusFlags_fst (v : BitVec 16) :
    (statusFlags v).map Prod.fst = (List.range 16).filter fun k => v.getLsbD k := by
  have hone : ∀ k : Fin 16, Option.map Prod.fst
      (if v.getLsbD k then some (k.val, Config.statusFlagName k) else none) =
      Option.guard (fun j => v.getLsbD j) k.val := fun k => by
    cases h : v.getLsbD k.val <;> simp [-BitVec.getLsbD_eq_getElem, Option.guard, h]
  calc (statusFlags v).map Prod.fst
      = (List.finRange 16).filterMap fun k => Option.guard (fun j => v.getLsbD j) k.val := by
        rw [statusFlags, List.map_filterMap]
        exact List.filterMap_congr fun k _ => hone k
    _ = ((List.finRange 16).map Fin.val).filterMap (Option.guard fun j => v.getLsbD j) := by
        rw [List.filterMap_map]; rfl
    _ = (List.range 16).filter fun k => v.getLsbD k := by
        rw [List.map_coe_finRange_eq_range, List.filterMap_eq_filter]

end Sys2Proof.Machine
end

section
/-! SUPPORT. The obligations of the projection. -/

open Sys2Proof Sys2Proof.Machine

/-- Settles O44: degrees, minutes and fraction over the one denominator 600_000 are the stated rational, and `round6`
is the nearest millionth to it. -/
theorem coordinateDegreesIsTheRoundedRational : Obligations.CoordinateDegreesIsTheRoundedRational := by
  intro s raw
  refine ⟨coordinate raw, exec_coordinateDegrees s raw, fun x hx => ?_⟩
  have hsum : x = ((raw / 1000000 * 600000 + (raw % 1000000 / 10000 * 10000 + raw % 10000) : Nat) : ℚ) /
      (600000 : Nat) := by
    rw [hx]
    push_cast
    ring
  rw [hsum]
  exact round6_nearest _ (by decide)

/-- Settles O47: six digits read as their three numbers; day and month decide the answer, since every month has 28
days. -/
theorem dateLabelAnswersOrFailsTheCall : Obligations.DateLabelAnswersOrFailsTheCall := by
  intro s date
  refine ⟨calendarDate date, exec_dateLabel s date, ?_⟩
  rintro d1 d0 m1 m0 y1 y0 rfl d m y rfl rfl rfl
  have hn := dateNumbers_ofNat d1 d0 m1 m0 y1 y0
  exact ⟨fun hd hd' hm hm' => calendarDate_of_everyMonth hn ⟨hd, hd'⟩ ⟨hm, hm'⟩, calendarDate_of_outside hn⟩

/-- Settles O48: the assignment is `DIR_BITS`, and a nibble's hex character gives the nibble back. -/
theorem directionLabelAnswersOneBooleanPerBit : Obligations.DirectionLabelAnswersOneBooleanPerBit := by
  refine ⟨meaningBit, meaningBit_injective, fun s => ⟨fun n => ?_, fun ch => ?_⟩⟩
  · obtain ⟨text, h⟩ := directionLabel_eq (hexChar n)
    rw [directionNibble_hexChar] at h
    exact ⟨text, by rw [exec_directionIndicatorLabel, h]; rfl⟩
  · obtain ⟨text, h⟩ := directionLabel_eq ch
    exact ⟨_, _, _, _, text, by rw [exec_directionIndicatorLabel, h]; rfl⟩

/-- Settles O49: the bit numbers of the answer are the selection of the 1 bits from 0 to 15. -/
theorem statusLabelsNameEveryOneBit : Obligations.StatusLabelsNameEveryOneBit :=
  fun s v => ⟨statusFlags v, exec_deviceStatusLabels s v, statusFlags_fst v⟩

/-- Settles O43: each lookup only answers, and its table reads the code's number. -/
theorem labelsOfCodes : Obligations.LabelsOfCodes := by
  intro s v t
  refine ⟨exec_protocolVersionLabel s v, ?_, ?_, ?_⟩
  · rw [exec_deviceTypeLabel, deviceLabel_eq]; rfl
  · rw [exec_dataTypeLabel, dataLabel_eq]
    generalize t.toNat = code
    match code with
    | 0 | 1 | 2 | 3 | 4 | _ + 5 => rfl
  · rw [exec_gsmSignalQualityLabel, gsmQuality_eq]; rfl

/-- Settles O45: the answer is twice the byte. -/
theorem angleDegreesDoublesTheRawUnit : Obligations.AngleDegreesDoublesTheRawUnit :=
  fun s raw => exec_angleDegrees s raw

/-- Settles O46: 185/100 of the byte is a whole number of millionths, so `round6` keeps it. -/
theorem speedIsExact : Obligations.SpeedIsExact := by
  intro s raw
  refine ⟨speed raw, exec_speedKmh s raw, ?_⟩
  rw [speed_eq]
  push_cast
  ring

end

section
/-! SUPPORT. The rules of exceptions: a frame that fails does so by failure entry, and with which kinds (R240, R246). -/

namespace Sys2Proof.Machine

/-- A frame fails only by failure entry, with one of the four kinds a decoder step can raise. `FrameTooShort` is
`START`'s and `MalformedHex` the splitter's. -/
theorem exec_frame_failure {i : Instr} {s t : State} (hi : i.isHostOp = false) (h : exec i s = .next t)
    (hrun : s.phase = .run) (hfail : t.phase = .fail) :
    ∃ e : Failure, (e.1 = .unrecognizedHeader ∨ e.1 = .fieldOutOfRange ∨ e.1 = .incompleteField ∨ e.1 = .badDigit) ∧
      t = s.raise e := by
  cases i with
  | hbeat tid unnamed =>
    obtain rfl : (s.heartbeat (ascii tid)).advance hbLen = t := by simpa [exec, execHbeat] using h
    simp [hrun] at hfail
  | cmd body closed =>
    obtain ⟨-, rfl⟩ | ⟨-, rfl⟩ := execCmd_next h
    · simp [hrun] at hfail
    · exact ⟨(.incompleteField, 30), by simp, rfl⟩
  | data fields cut =>
    obtain ⟨e, he, rfl⟩ | ⟨st, -, rfl⟩ := execData_next (cut := cut) h
    · have hkind := dataFrame_error_kind he
      exact ⟨e, by tauto, rfl⟩
    · simp [hrun] at hfail
  | illegal marker => exact ⟨(.unrecognizedHeader, 1), by simp, by simpa [exec, execIllegal] using h.symm⟩
  | _ => simp [Instr.isHostOp] at hi

end Sys2Proof.Machine
end

section
/-! SUPPORT. The obligations of exceptions. -/

open Sys2Proof Sys2Proof.Machine

/-- Settles O23: the finish of the walk goes to `DONE`, so a failing step is a frame's, and its failure entry starts
from the state whose turn was taken off the agenda. -/
theorem failureEntryIsIndivisible : Obligations.FailureEntryIsIndivisible := by
  intro s t hd hrun h hfail
  rw [step_decoder hd] at h
  obtain ⟨hnot, -⟩ | ⟨-, -, rfl⟩ | ⟨-, -, i, hi, he⟩ := walk_next h
  · exact absurd hrun hnot
  · simp at hfail
  · obtain ⟨-, hframe, -⟩ := State.fetch_frame hi
    obtain ⟨e, hkind, rfl⟩ := exec_frame_failure (s := s.popTurn) hframe he hrun hfail
    exact ⟨hkind, rfl⟩

end

section
/-! SUPPORT. The rules of the host operations, said forwards: `LOAD` (R273), `POLL` (R275), `READ` (R276), and that
the operations that only answer take their answer from the configuration at most (R277). -/

namespace Sys2Proof.Machine

/-! ## `LOAD` (R273); `execLoad_of_fits` is the third case -/

section
variable {s : State} {bytes : List Byte}

theorem execLoad_of_run (hp : s.phase = .run) : execLoad bytes s = .next s := by
  rw [execLoad, if_pos hp]

theorem execLoad_of_overlong (hp : s.phase ≠ .run) (hl : s.cfg.bufMax < bytes.length) :
    execLoad bytes s = .refused (.loadLongerThanBuffer bytes.length) := by
  rw [execLoad, if_neg hp, if_neg (Nat.not_le.2 hl)]

end

/-! ## `POLL` (R275) -/

theorem exec_poll (s : State) : exec .poll s = .next (s.answer s.pollView) := rfl

/-! ## The read port (R49, R276) -/

/-- The message registers and `NREC` by name, with what each holds. -/
def resultValues (msg : Msg) (recs : List Record) : List (ReadName × ReadValue) :=
  [(.protocolHeader, .num msg.protocolHeader.toNat), (.protocolVersion, .num msg.protocolVersion.toNat),
   (.imei, .chars msg.imei), (.terminalId, .chars msg.terminalId), (.deviceType, .num msg.deviceType.toNat),
   (.dataType, .num msg.dataType.toNat), (.bindVehicleId, .chars msg.bindVehicleId),
   (.containsHealthcheck, .bit msg.containsHealthcheck), (.nrec, .num recs.length)]

theorem readResult_of_mem_resultValues {msg : Msg} {recs : List Record} {name : ReadName} {v : ReadValue}
    (h : (name, v) ∈ resultValues msg recs) : readResult msg recs name = some v := by
  have hrows : ∀ p ∈ resultValues msg recs, readResult msg recs p.1 = some p.2 := by simp [resultValues, readResult]
  exact hrows _ h

/-- `cellId` is the high half of the code (R41). -/
@[simp] theorem Record.cellId_toNat (r : Record) : r.cellId.toNat = r.cellIdPositionCode.toNat / 65536 := by
  have := r.cellIdPositionCode.isLt
  simp only [Record.cellId, BitVec.extractLsb'_toNat, Nat.shiftRight_eq_div_pow]
  omega

/-- `lac` is the low half of the code (R41). -/
@[simp] theorem Record.lac_toNat (r : Record) : r.lac.toNat = r.cellIdPositionCode.toNat % 65536 := by
  simp [Record.lac]

section
variable {s : State}

theorem State.readView_of_done (hp : s.phase = .done) (name : ReadName) :
    s.readView name = readResult s.msg s.recs name := by
  rw [State.readView, if_pos hp]

theorem State.readView_of_not_done (hp : s.phase ≠ .done) (name : ReadName) :
    s.readView name = readResult (Msg.reset s.cfg.imeiMode) [] name := by
  rw [State.readView, if_neg hp]

theorem State.readView_record {i : Nat} {r : Record} (hp : s.phase = .done) (hr : s.recs[i]? = some r)
    (f : RecordField) : s.readView (.record i f) = some (r.get f) := by
  rw [State.readView_of_done hp, readResult, hr, Option.map_some]

/-- `State.readView_eq_none` is the converse. -/
theorem State.readView_record_eq_none {i : Nat} (h : s.phase ≠ .done ∨ s.nrec ≤ i) (f : RecordField) :
    s.readView (.record i f) = none := by
  by_cases hp : s.phase = .done
  · have hi : s.recs[i]? = none := List.getElem?_eq_none (h.resolve_left (not_not.2 hp))
    rw [State.readView_of_done hp, readResult, hi, Option.map_none]
  · rw [State.readView_of_not_done hp]
    rfl

/-! ## `READ` (R276); `execRead_next` is the inversion -/

theorem execRead_of_run (hp : s.phase = .run) (name : ReadName) : execRead name s = .refused .readWhileRunning := by
  rw [execRead, if_pos hp]

theorem execRead_of_some {name : ReadName} {v : ReadValue} (hp : s.phase ≠ .run) (hv : s.readView name = some v) :
    execRead name s = .next (s.answer (.read v)) := by
  simp only [execRead, if_neg hp, hv]

theorem execRead_of_none {name : ReadName} (hp : s.phase ≠ .run) (hv : s.readView name = none) :
    execRead name s = .refused (.readPastRecords (readIndex name)) := by
  simp only [execRead, if_neg hp, hv]

end

/-! ## The operations that only answer (R277) -/

/-- Only `POLL`'s answer depends on a register; of the others `protocolVersionLabel` alone reads the configuration
(R215). -/
theorem exec_onlyAnswers_of_cfg {i : Instr} (hi : Instr.onlyAnswers i = true) (hpoll : i ≠ .poll) :
    ∃ r : Config → Reply, ∀ s, exec i s = .next (s.answer (r s.cfg)) := by
  cases i with
  | poll => exact absurd rfl hpoll
  | protocolVersionLabel v =>
    exact ⟨fun cfg => .label (versionLabel cfg v), fun s => exec_protocolVersionLabel s v⟩
  | evtHas | evtAdd | evtRender | chkLat | chkLng | chkAngle | split | deviceTypeLabel | dataTypeLabel
  | coordinateDegrees | dateLabel | speedKmh | angleDegrees | gsmSignalQualityLabel | directionIndicatorLabel
  | deviceStatusLabels => exact ⟨fun _ => _, fun _ => rfl⟩
  | hbeat | cmd | data | illegal | reset | load | start | read => simp [Instr.onlyAnswers] at hi

end Sys2Proof.Machine
end

section
/-! SUPPORT. The obligations of reset and hazards. -/

open Sys2Proof Sys2Proof.Machine

/-- Settles O27: the bytes of `LOAD` read back, and no other address is written. -/
theorem loadFillsTheBuffer : Obligations.LoadFillsTheBuffer := by
  refine fun s bytes => ⟨fun hp hl => ?_, fun hp _ => execLoad_of_run hp, fun hp hl => execLoad_of_overlong hp hl⟩
  refine ⟨s.loaded bytes, execLoad_of_fits hp hl, rfl, (s.loaded_holds bytes).read, fun a ha => ?_⟩
  exact Memory.read_writeBytes_outside s.mem bytes (.inr (by omega))

/-- Settles O30: the answer is computed phase by phase, and `PHASE` moves from `DONE` and `FAIL` only as R21 lists. -/
theorem pollReportsThePhaseAndTheFailure : Obligations.PollReportsThePhaseAndTheFailure := by
  refine ⟨fun s => ?_, fun s t hend h => ?_⟩
  · rw [exec_poll, State.answer, State.pollView]
    cases s.phase <;> rfl
  · obtain hsame | ⟨hreset, -⟩ | ⟨hstart, -⟩ | ⟨-, hrun, -⟩ := phaseMovesOnlyAsListed s t h
    · exact .inl hsame
    · exact .inr (.inr hreset)
    · exact .inr (.inl hstart)
    · simp [hrun] at hend

/-- Settles O32: each field's name stands in the table once, with what the read port answers for it. -/
theorem readAtDoneAnswersTheRecordField : Obligations.ReadAtDoneAnswersTheRecordField := by
  intro s i r hp hr f v h
  obtain rfl : v = r.get f := by
    cases f <;> simpa [Record.get] using h
  exact execRead_of_some (by simp [hp]) (State.readView_record hp hr f)

/-- Settles O34: a host operation outside the five named only answers. -/
theorem portsAndHostFunctionsTouchNothing : Obligations.PortsAndHostFunctionsTouchNothing := by
  intro i hi hreset hload hstart hpoll hread
  have hanswers : Instr.onlyAnswers i = true := by
    cases i with
    | reset => exact absurd rfl hreset
    | load bytes => exact absurd rfl (hload bytes)
    | start => exact absurd rfl hstart
    | read name => exact absurd rfl (hread name)
    | hbeat | cmd | data | illegal => simp [Instr.isHostOp] at hi
    | _ => rfl
  exact exec_onlyAnswers_of_cfg hanswers hpoll

/-- Settles O11, as the host's branch of the step. -/
theorem hostTurnRunsTheOperation : Obligations.HostTurnRunsTheOperation :=
  fun _ _ => step_host

/-- Settles O26, by computing `RESET`; the buffer it leaves is `State.hostReset_mem`'s. -/
theorem resetTakesEveryElementToItsResetValue : Obligations.ResetTakesEveryElementToItsResetValue :=
  fun s => ⟨s.hostReset.mem, rfl⟩

/-- Settles O31: at `DONE` the read port shows the registers themselves. -/
theorem readAtDoneAnswersTheMessageRegister : Obligations.ReadAtDoneAnswersTheMessageRegister := by
  intro s hp name v h
  exact execRead_of_some (by simp [hp]) ((State.readView_of_done hp name).trans (readResult_of_mem_resultValues h))

/-- Settles O33: outside `DONE` the read port shows the reset message and an empty store. -/
theorem readOutsideDone : Obligations.ReadOutsideDone := by
  refine fun s => ⟨fun name hrun => execRead_of_run hrun name, fun i f hrun hnone => ?_, fun hp name v h => ?_⟩
  · exact execRead_of_none hrun (State.readView_record_eq_none hnone f)
  · have hdone : s.phase ≠ .done := by intro hd; simp [hd] at hp
    have hrun : s.phase ≠ .run := by intro hr; simp [hr] at hp
    exact execRead_of_some hrun ((State.readView_of_not_done hdone name).trans (readResult_of_mem_resultValues h))

end
